-- ==== Sys2Proof/Word.lean ====
section
/-! DEFINITION. The sizes of CORE (00_scope.md rule R8) and the byte, text and identifier types. -/

namespace Sys2Proof

/-- An 8-bit unsigned value; a character is one byte (00_scope.md section 4, rule R51). -/
abbrev Byte := BitVec 8

/-- A text buffer: `TEXT_BUF` = 36 bytes, as long as the longest form (`UUID_CHARS`), character 0 first (rules
R8, R22, R34, R50). -/
abbrev Text := Vector Byte 36
/-- A ULID text: `ULID_CHARS` = 26 characters (rules R8, R76). -/
abbrev UlidText := Vector Byte 26
/-- An identifier: `ID_BYTES` = 16 bytes, byte 0 the most significant (rules R8, R35, R50, R54). -/
abbrev Ident := Vector Byte 16

/-- 36 bytes of 0x00, the "empty" text (rule R163). -/
def Text.zero : Text := Vector.replicate 36 0
/-- 16 bytes of 0x00, the "empty" identifier (rule R163). -/
def Ident.zero : Ident := Vector.replicate 16 0

end Sys2Proof
end

