-- ==== Sys2Proof/Syntax.lean ====
section
/-! DEFINITION. The operations of spec/opcode_table.json (rule R71) and the transaction-script notation
(rule R89). -/

namespace Sys2Proof

/-- The six operations, one constructor per row of spec/opcode_table.json. Format `OP3` has no operand
fields: the code fixes the operand (rule R70). The reserved codes 0b110 and 0b111 are no rows (rule R150). -/
inductive Instr where
  | convert      -- CONVERT, rule R146
  | classify     -- CLASSIFY, rule R145
  | ulidDecode   -- ULID_DECODE, rule R106
  | ulidEncode   -- ULID_ENCODE, rule R107
  | uuidDecode   -- UUID_DECODE, rule R126
  | uuidEncode   -- UUID_ENCODE, rule R127
deriving DecidableEq, Repr

/-- The two operand kinds of rules R71 and R75. -/
inductive OperandKind where
  | text
  | identifier
deriving DecidableEq, Repr

/-- The operand column of rule R71. -/
def Instr.operand : Instr → OperandKind
  | .convert => .text
  | .classify => .text
  | .ulidDecode => .text
  | .ulidEncode => .identifier
  | .uuidDecode => .text
  | .uuidEncode => .identifier

/-- The output ports of rule R23. -/
inductive OutPort where
  | busy
  | done
  | err
  | errClass
  | kind
  | outLen
  | outText
  | outId
  | status
deriving DecidableEq, Repr

/-- The width column of rule R23, in bits. -/
def OutPort.width : OutPort → Nat
  | .busy => 1
  | .done => 1
  | .err => 1
  | .errClass => 3
  | .kind => 3
  | .outLen => 6
  | .outText => 288
  | .outId => 128
  | .status => 16

/-- One line of a transaction script (rule R89). -/
inductive ScriptLine where
  /-- `RESET` -/
  | reset
  /-- `<MNEMONIC> "<text>"` -/
  | text (i : Instr) (chars : List Byte)
  /-- `<MNEMONIC> id=0x<32 hex>` -/
  | ident (i : Instr) (id : Ident)
  /-- `OP<n>` -/
  | rawOp (n : Nat)
  /-- `WAIT` -/
  | wait
  /-- `EXPECT <register> = <value>`; a buffer's value is read big-endian -/
  | expect (port : OutPort) (value : Nat)
deriving DecidableEq, Repr

end Sys2Proof
end

