-- ==== Sys2Proof/WellFormed.lean ====
section
/-! DEFINITION. Which operations and script lines are well formed. -/

namespace Sys2Proof

/-- Every operation is well formed: `OP3` has no register fields and no immediates to check (rule R70). -/
def Instr.wf : Instr → Bool
  | .convert => true
  | .classify => true
  | .ulidDecode => true
  | .ulidEncode => true
  | .uuidDecode => true
  | .uuidEncode => true

/-- A script line is well formed when a text line names a text operation and an identifier line an
identifier operation (rules R75, R89), when `OP<n>` has n in 0..7 (rule R89), and when the value of an
`EXPECT` fits its port (rule R23). -/
def ScriptLine.wf : ScriptLine → Bool
  | .reset => true
  | .text i _ => i.wf && i.operand == .text
  | .ident i _ => i.wf && i.operand == .identifier
  | .rawOp n => decide (n < 8)
  | .wait => true
  | .expect p v => decide (v < 2 ^ p.width)

end Sys2Proof
end

