-- ==== Sys2Proof/Decode.lean ====
section
/-! DEFINITION. The operation decoder (rules R70 to R73), then the encoder. -/

namespace Sys2Proof

/-- Why a code is no operation. -/
inductive DecodeError where
  /-- 0b110 or 0b111: reserved; the machine completes it with ILLEGAL_OP (rules R73, R150) -/
  | reservedOp (op : BitVec 3)
deriving DecidableEq, Repr

/-- The `OP` map of rule R71; total on every 3-bit code. -/
def decode (op : BitVec 3) : Except DecodeError Instr :=
  match op.toNat with
  | 0 => .ok .convert
  | 1 => .ok .classify
  | 2 => .ok .ulidDecode
  | 3 => .ok .ulidEncode
  | 4 => .ok .uuidDecode
  | 5 => .ok .uuidEncode
  | _ => .error (.reservedOp op)

/-- The operation an instruction word of `nbits` bits gives: the `OP` port takes bits 2:0, and CORE has no
wire for any other bit (rules R22, R70; log 12). -/
def decodeTableWord (nbits w : Nat) : Option Instr :=
  match decode (BitVec.ofNat 3 (w % 2 ^ nbits)) with
  | .ok i => some i
  | .error _ => none

/-- The `OP` code of an operation (rule R71). -/
def encode : Instr → BitVec 3
  | .convert => 0b000
  | .classify => 0b001
  | .ulidDecode => 0b010
  | .ulidEncode => 0b011
  | .uuidDecode => 0b100
  | .uuidEncode => 0b101

end Sys2Proof
end

