-- ==== Sys2Proof/Config.lean ====
section
/-! DEFINITION. The register groups whose contents the spec sometimes leaves open, the two open parameters
of rule R9, and the free values. Nothing here has a value that a proof can see. -/

namespace Sys2Proof

/-- The two values of the controller (rule R24). -/
inductive Fsm where
  | idle
  | busy
deriving DecidableEq, Repr, Inhabited

/-- The six result registers of rules R27 to R29 and R33 to R35. -/
structure Results where
  /-- `ERR` (rule R27) -/
  err : BitVec 1
  /-- `ERR_CLASS` (rule R28) -/
  errClass : BitVec 3
  /-- `KIND` (rule R29) -/
  kind : BitVec 3
  /-- `OUT_LEN` (rule R33) -/
  outLen : BitVec 6
  /-- `OUT_TEXT[0..35]` (rule R34) -/
  outText : Text
  /-- `OUT_ID[0..15]` (rule R35) -/
  outId : Ident
deriving DecidableEq, Repr, Inhabited

/-- The four hidden registers an accepted start loads (rules R30 and R37). -/
structure Captured where
  /-- `OP_Q` -/
  opQ : BitVec 3
  /-- `LEN_Q` -/
  lenQ : BitVec 8
  /-- `TEXT_Q[0..35]` -/
  textQ : Text
  /-- `ID_Q[0..15]` -/
  idQ : Ident
deriving DecidableEq, Repr, Inhabited

namespace Config

/-- Any function at all; `latency` cuts it to the range rule R9 gives (log 3). -/
opaque latencyDraw : Captured → Nat
/-- Any number at all; `MAX_LATENCY` is one more (log 3). -/
opaque maxLatencyLessOne : Nat

/-- `MAX_LATENCY` of rule R9: a finite bound on `LATENCY`, at least 1. -/
def maxLatency : Nat := maxLatencyLessOne + 1

/-- `LATENCY(OP_Q, LEN_Q, TEXT_Q, ID_Q)` of rules R9 and R32: an unknown function of the four captured
registers, at least 1 and at most `MAX_LATENCY` (rule R191). -/
def latency (c : Captured) : Nat := latencyDraw c % maxLatency + 1

/-- What the result registers hold at a moment the spec leaves them unspecified (rules R30, R39, R182): one
draw for each value of the counter `draws` (log 6). -/
opaque freeResults : Nat → Results
/-- What a READ of a result port shows while it is unspecified (rule R39, 93_implementation_defined.md I1):
one draw for each value of the counter and each number of the read (log 6). -/
opaque freeRead : Nat → Nat → Results
/-- Bits 14:2 of a read of `STATUS` while they are unspecified (I1, log 6). -/
opaque freeStatus : Nat → Nat → BitVec 13
/-- The captured registers where they are unspecified (rules R42, R182; log 4). -/
opaque freeCaptured : Nat → Captured
/-- The hidden cycle counter where it is unspecified (rules R42, R182; log 4). -/
opaque freeCycles : Nat → Nat
/-- `FSM` before the first reset (rule R182; log 7). -/
opaque freeFsm : Nat → Fsm
/-- `DONE` before the first reset (rule R182; log 7). -/
opaque freeDone : Nat → BitVec 1

end Config

end Sys2Proof
end

