-- ==== Sys2Proof/Machine/State.lean ====
section
/-! DEFINITION. The state of CORE (10_state.md), the host's ports and moves, and the state after reset. -/

namespace Sys2Proof.Machine

/-- CORE stops with no fault: every operation completes on every input (rules R72, R162, R168), so no one
raises one and the type has no constructor (log 11). -/
inductive Fault
deriving DecidableEq, Repr

/-- The reasons to have no meaning for an operation. -/
inductive Refusal where
  /-- Raised by an arm of `exec` whose operation has no meaning in the model yet; safe. No arm raises it. -/
  | notModelled (mnemonic : String)
deriving DecidableEq, Repr

/-- The values the host drives on the input ports of rule R22, sampled on the next rising edge. `CLK` is not
among them: a step is one rising edge (log 1). -/
structure Inputs where
  /-- `RST` -/
  rst : BitVec 1
  /-- `START` -/
  start : BitVec 1
  /-- `OP` -/
  op : BitVec 3
  /-- `IN_LEN` -/
  inLen : BitVec 8
  /-- `IN_TEXT[0..35]` -/
  inText : Text
  /-- `IN_ID[0..15]` -/
  inId : Ident
deriving DecidableEq, Repr

/-- No request: every port at 0 (log 5). -/
def Inputs.quiet : Inputs :=
  { rst := 0, start := 0, op := 0, inLen := 0, inText := Text.zero, inId := Ident.zero }

/-- What the host does between two edges (log 2). -/
inductive HostMove where
  /-- put these values on the ports for the next edge -/
  | drive (ports : Inputs)
  /-- hold `START = 0` and `RST = 0` until `DONE = 1` (`WAIT` of rule R89) -/
  | wait
deriving DecidableEq, Repr

/-- Everything the spec gives the machine, and the host's side of its ports. -/
structure State where
  /-- the input ports (rule R22) -/
  inputs : Inputs
  /-- `FSM` (rule R24); `BUSY` is read from it (rule R25) -/
  fsm : Fsm
  /-- `DONE` (rule R26) -/
  done : BitVec 1
  /-- the result registers (rules R27 to R29, R33 to R35) -/
  results : Results
  /-- the captured registers (rule R37) -/
  captured : Captured
  /-- the hidden cycle counter (rule R37): edges left to the completion, counting the completion (log 3) -/
  cyclesLeft : Nat
  /-- the model's own: an edge with `RST = 1` has happened since power-on (rule R182, log 7) -/
  sawReset : Bool
  /-- the model's own: how many free values have been drawn (log 6) -/
  draws : Nat
  /-- the model's own: the host's moves to come (log 2) -/
  script : List HostMove
deriving DecidableEq, Repr

/-- The reset values of the result registers (rule R42). -/
def resetResults : Results :=
  { err := 0, errClass := 0, kind := 0, outLen := 0, outText := Text.zero, outId := Ident.zero }

/-- The machine right after reset (rule R42). `captured` and `cyclesLeft`, which rule R42 leaves unspecified,
and the host's side are at the values of logs 2, 4, 5 and 6. -/
def State.reset : State :=
  { inputs := Inputs.quiet
    fsm := .idle
    done := 0
    results := resetResults
    captured := { opQ := 0, lenQ := 0, textQ := Text.zero, idQ := Ident.zero }
    cyclesLeft := 0
    sawReset := true
    draws := 0
    script := [] }

end Sys2Proof.Machine
end

