-- ==== Sys2Proof/Machine/Flags.lean ====
section
/-! DEFINITION. The codes of ERR_CLASS and KIND (rules R86, R87), the output ports and the STATUS view
(rules R23, R25, R36, R39). -/

namespace Sys2Proof.Machine

/-- The error classes an operation raises (rules R86, R160). -/
inductive ErrClass where
  | shape
  | range
  | hex
  | illegalOp
deriving DecidableEq, Repr

/-- The classifier's verdicts (rules R87, R140). -/
inductive Kind where
  | ulid
  | uuid
  | guid
  | unrecognized
deriving DecidableEq, Repr

/-- The code of an error class in `ERR_CLASS` (rule R86). -/
def ErrClass.code : ErrClass → BitVec 3
  | .shape => 1
  | .range => 2
  | .hex => 3
  | .illegalOp => 4

/-- `ERR_CLASS` NONE (rule R86). -/
def errClassNone : BitVec 3 := 0

/-- The code of a verdict in `KIND` (rule R87). -/
def Kind.code : Kind → BitVec 3
  | .ulid => 1
  | .uuid => 2
  | .guid => 3
  | .unrecognized => 4

/-- `KIND` NONE: the operation does not classify (rule R87). -/
def kindNone : BitVec 3 := 0

/-- Whether the result registers are specified: after the first reset and while `FSM = IDLE` (rules R38,
R39, R182). -/
def resultsSpecified (s : State) : Bool := s.sawReset && s.fsm == .idle

/-- `BUSY` (rule R25). -/
def readBusy (s : State) : BitVec 1 :=
  match s.fsm with
  | .idle => 0
  | .busy => 1

/-- `DONE` (rule R26). -/
def readDone (s : State) : BitVec 1 := s.done

/-- What the k-th read of the result ports between two edges shows: the registers where they are specified,
and a draw of its own for each read where they are not (rule R39, I1). -/
def readResults (k : Nat) (s : State) : Results :=
  if resultsSpecified s then s.results else Config.freeRead s.draws k

/-- `ERR` (rule R27). -/
def readErr (k : Nat) (s : State) : BitVec 1 := (readResults k s).err
/-- `ERR_CLASS` (rule R28). -/
def readErrClass (k : Nat) (s : State) : BitVec 3 := (readResults k s).errClass
/-- `KIND` (rule R29). -/
def readKind (k : Nat) (s : State) : BitVec 3 := (readResults k s).kind
/-- `OUT_LEN` (rule R33). -/
def readOutLen (k : Nat) (s : State) : BitVec 6 := (readResults k s).outLen
/-- `OUT_TEXT` (rule R34). -/
def readOutText (k : Nat) (s : State) : Text := (readResults k s).outText
/-- `OUT_ID` (rule R35). -/
def readOutId (k : Nat) (s : State) : Ident := (readResults k s).outId

/-- Bits 14:2 of `STATUS` from the result registers (rule R36). -/
def statusResultBits (r : Results) : BitVec 13 := r.outLen ++ r.kind ++ r.errClass ++ r.err

/-- `STATUS` (rule R36): bit 15 is 0; `DONE` and `BUSY` are always the registers'; bits 14:2 are a draw where
the result registers are unspecified (I1). -/
def readStatus (k : Nat) (s : State) : BitVec 16 :=
  0#1 ++ (if resultsSpecified s then statusResultBits s.results else Config.freeStatus s.draws k)
    ++ readDone s ++ readBusy s

end Sys2Proof.Machine
end

