-- ==== Sys2Proof/Machine/Ops.lean ====
section
/-! DEFINITION. The shared operations: reading a buffer, completing an operation, raising an error class, and
the clock edges that run no operation (rules R30 to R32, R38, R39, R58, R163, R180, R182). -/

namespace Sys2Proof.Machine

/-- `MemRead(S, a, n)`: the big-endian number formed by bytes `S[a..a+n-1]` (00_scope.md section 4, rule
R54). -/
def memRead (buf : List Byte) (a n : Nat) : Nat :=
  ((buf.drop a).take n).foldl (fun v b => v * 256 + b.toNat) 0

/-- The 128-bit value `V` of an identifier: `MemRead(ID, 0, 16)` (rule R54). -/
def identValue (id : Ident) : BitVec 128 := BitVec.ofNat 128 (memRead id.toList 0 16)

/-- The identifier of a 128-bit value: `ID[j] = V[127-8j : 120-8j]` (rule R54). -/
def identOfValue (v : BitVec 128) : Ident := Vector.ofFn fun j => v.extractLsb' (120 - 8 * j.val) 8

/-- `X[a..a+n-1]` of a text (00_scope.md section 4). -/
def slice (t : Text) (a n : Nat) : List Byte := (t.toList.drop a).take n

/-- What an operation returns when it raises nothing (rules R106, R107, R126, R127, R145, R146): `ERR = 0`,
`ERR_CLASS = NONE` and the outputs the rule names. -/
def successResults (kind : BitVec 3) (olen : BitVec 6) (otext : Text) (oid : Ident) : Results :=
  { err := 0, errClass := errClassNone, kind := kind, outLen := olen, outText := otext, outId := oid }

/-- The failure outputs of rule R163. -/
def failureResults (e : ErrClass) (kind : BitVec 3) : Results :=
  { err := 1, errClass := e.code, kind := kind, outLen := 0, outText := Text.zero, outId := Ident.zero }

/-- The writes of a completion, all at once (rules R32, R58): the result registers, `DONE` and `FSM`. -/
def complete (r : Results) (s : State) : State :=
  { s with results := r, done := 1, fsm := .idle }

/-- `raise E` (rules R162, R163): the operation completes with the failure outputs. No state is saved, no mode
changes and there is nothing to return from (rules R168, R169). -/
def raiseError (e : ErrClass) (kind : BitVec 3) (s : State) : State :=
  complete (failureResults e kind) s

/-- The completion of an operation that returned or raised; `kind` is what `KIND` holds if it raised (rule
R163). -/
def finish (kind : BitVec 3) (r : Except ErrClass Results) (s : State) : State :=
  match r with
  | .ok res => complete res s
  | .error e => raiseError e kind s

/-- The operation the captured code selects (rules R32, R65, R71). -/
def selectedOp (s : State) : Except DecodeError Instr := decode s.captured.opQ

/-- The registers an accepted start loads (rule R30). -/
def captureInputs (p : Inputs) : Captured :=
  { opQ := p.op, lenQ := p.inLen, textQ := p.inText, idQ := p.inId }

/-- The result registers become unspecified: a fresh draw (rules R30, R39; log 6). -/
def scrambleResults (s : State) : State :=
  { s with results := Config.freeResults s.draws, draws := s.draws + 1 }

/-- An accepted start (rule R30): capture, `DONE` cleared, `FSM` BUSY, the result registers unspecified, and
the cycle counter at `LATENCY` (rule R32, log 3). -/
def acceptStart (s : State) : State :=
  scrambleResults
    { s with
      captured := captureInputs s.inputs
      done := 0
      fsm := .busy
      cyclesLeft := Config.latency (captureInputs s.inputs) }

/-- An edge with `FSM = BUSY` on which no completion is due. A start request on it is ignored (rule R31); the
result registers stay unspecified and may change (rule R39). -/
def busyEdge (s : State) : State :=
  scrambleResults { s with cyclesLeft := s.cyclesLeft - 1 }

/-- An edge with `RST = 1` (rules R42, R180, R181). The captured registers and the cycle counter are left
unspecified (rule R42, log 4). -/
def resetEdge (s : State) : State :=
  { s with
    fsm := .idle
    done := 0
    results := resetResults
    captured := Config.freeCaptured s.draws
    cyclesLeft := Config.freeCycles s.draws
    sawReset := true
    draws := s.draws + 1 }

/-- Every register of CORE at an unconstrained value (rule R182, log 7). -/
def unspecifyAll (s : State) : State :=
  { s with
    fsm := Config.freeFsm s.draws
    done := Config.freeDone s.draws
    results := Config.freeResults s.draws
    captured := Config.freeCaptured s.draws
    cyclesLeft := Config.freeCycles s.draws
    draws := s.draws + 1 }

/-- The machine at power-on, before any reset, with these ports and these moves of the host; `d` numbers the
draw (rule R182, I5; log 7). -/
def powerOn (ports : Inputs) (moves : List HostMove) (d : Nat) : State :=
  unspecifyAll
    { State.reset with inputs := ports, script := moves, sawReset := false, draws := d }

end Sys2Proof.Machine
end

