-- ==== Sys2Proof/Machine/Operands.lean ====
section
/-! DEFINITION. The operands and data formats: the character tables (rules R80 to R84) and the assembly of a
128-bit value from a text (rules R76 to R78, R85, R88). -/

namespace Sys2Proof.Machine

/-- `0123456789ABCDEFGHJKMNPQRSTVWXYZ` in bytes (rules R80, R81). -/
def alphabet : Vector Byte 32 :=
  #v[0x30, 0x31, 0x32, 0x33, 0x34, 0x35, 0x36, 0x37, 0x38, 0x39,
     0x41, 0x42, 0x43, 0x44, 0x45, 0x46, 0x47, 0x48, 0x4A, 0x4B, 0x4D, 0x4E,
     0x50, 0x51, 0x52, 0x53, 0x54, 0x56, 0x57, 0x58, 0x59, 0x5A]

/-- `0123456789abcdef` in bytes (rule R84). -/
def hexDigitsLower : Vector Byte 16 :=
  #v[0x30, 0x31, 0x32, 0x33, 0x34, 0x35, 0x36, 0x37, 0x38, 0x39, 0x61, 0x62, 0x63, 0x64, 0x65, 0x66]

/-- `'-'` (rule R80). -/
def hyphen : Byte := 0x2D

/-- The upper-case twin of a letter; any other byte is itself (rules R80, R81). -/
def upperCase (c : Byte) : Byte := if 0x61 ≤ c ∧ c ≤ 0x7A then c - 0x20 else c

/-- The first position at which a byte stands in a list, counted from `k`. -/
def positionFrom (c : Byte) : List Byte → Nat → Option Nat
  | [], _ => none
  | a :: as, k => if a = c then some k else positionFrom c as (k + 1)

/-- `sym(c)` (rule R81): the position of a character in the alphabet, in either case; `none` is `⊥`. -/
def sym (c : Byte) : Option (BitVec 5) :=
  match positionFrom (upperCase c) alphabet.toList 0 with
  | some k => some (BitVec.ofNat 5 k)
  | none => none

/-- `ALPHA[v]` (rule R82). -/
def alpha (v : BitVec 5) : Byte := alphabet[v.toNat]'v.isLt

/-- `hexval(c)` (rule R83); `none` is `⊥`. -/
def hexval (c : Byte) : Option (BitVec 4) :=
  if 0x30 ≤ c ∧ c ≤ 0x39 then some ((c - 0x30).setWidth 4)
  else if 0x61 ≤ c ∧ c ≤ 0x66 then some ((c - 0x57).setWidth 4)
  else if 0x41 ≤ c ∧ c ≤ 0x46 then some ((c - 0x37).setWidth 4)
  else none

/-- `HEXL[v]` (rule R84). -/
def hexl (v : BitVec 4) : Byte := hexDigitsLower[v.toNat]'v.isLt

/-- The value of every character, or `none` if one has none (the loops of rules R100, R120). -/
def charValues {α : Type} (f : Byte → Option α) : List Byte → Option (List α)
  | [] => some []
  | c :: cs =>
    match f c, charValues f cs with
    | some v, some vs => some (v :: vs)
    | _, _ => none

/-- `W`: the base-32 big-endian number 26 symbols spell (rules R85, R100). Nothing wraps. -/
def ulidNumber (syms : List (BitVec 5)) : Nat := syms.foldl (fun w v => w * 32 + v.toNat) 0

/-- Whether positions 8, 13, 18 and 23 hold `'-'` (rules R77, R120, R140). -/
def hyphensInPlace (t : Text) : Bool :=
  t[8] == hyphen && t[13] == hyphen && t[18] == hyphen && t[23] == hyphen

/-- The 32 digit characters of a hyphenated UUID text (rules R77, R120). -/
def uuidDigitChars (t : Text) : List Byte :=
  slice t 0 8 ++ slice t 9 4 ++ slice t 14 4 ++ slice t 19 4 ++ slice t 24 12

/-- `ID[j] = {hexval(d[2j]), hexval(d[2j+1])}` (rule R88). -/
def identOfDigits (ds : List (BitVec 4)) : Ident :=
  Vector.ofFn fun j => ds.getD (2 * j.val) 0 ++ ds.getD (2 * j.val + 1) 0

/-- A 26-character text in the 36-byte buffer: 0x00 past its end (rules R34, R107, R146). -/
def padText (u : UlidText) : Text := u ++ Vector.replicate 10 (0 : Byte)

end Sys2Proof.Machine
end

