-- ==== Sys2Proof/Machine/UlidCodec.lean ====
section
/-! DEFINITION. Codec-ULID (40_ulid_codec.md): ULID_DECODE and ULID_ENCODE. -/

namespace Sys2Proof.Machine

/-- `UlidDecodeFn(n, t)` (rules R100, R105): length, then character set, then range. -/
def ulidDecodeFn (n : BitVec 8) (t : Text) : Except ErrClass Ident :=
  if n ≠ 26 then .error .shape
  else
    match charValues sym (slice t 0 26) with
    | none => .error .shape
    | some syms =>
      if 2 ^ 128 ≤ ulidNumber syms then .error .range
      else .ok (identOfValue (BitVec.ofNat 128 (ulidNumber syms)))

/-- `UlidEncodeFn(V)` (rule R101): symbol i is `ALPHA[W[129-5i : 125-5i]]` of `W = zext_130(V)`. -/
def ulidEncodeFn (v : BitVec 128) : UlidText :=
  Vector.ofFn fun i => alpha ((v.setWidth 130).extractLsb' (125 - 5 * i.val) 5)

/-- ULID_DECODE up to its completion (rule R106). -/
def ulidDecodeOp (n : BitVec 8) (t : Text) : Except ErrClass Results :=
  match ulidDecodeFn n t with
  | .ok id => .ok (successResults kindNone 0 Text.zero id)
  | .error e => .error e

/-- ULID_DECODE (rule R106). -/
def execUlidDecode (s : State) : Host.Outcome State Fault Refusal :=
  .next (finish kindNone (ulidDecodeOp s.captured.lenQ s.captured.textQ) s)

/-- ULID_ENCODE (rule R107); it never raises (rule R161). -/
def execUlidEncode (s : State) : Host.Outcome State Fault Refusal :=
  .next (complete
    (successResults kindNone 26 (padText (ulidEncodeFn (identValue s.captured.idQ))) s.captured.idQ) s)

end Sys2Proof.Machine
end

