-- ==== Sys2Proof/Machine/UuidCodec.lean ====
section
/-! DEFINITION. Codec-UUID (41_uuid_codec.md): UUID_DECODE and UUID_ENCODE. -/

namespace Sys2Proof.Machine

/-- The digit loop and the return of rule R120. -/
def decodeHexDigits (d : List Byte) : Except ErrClass Ident :=
  match charValues hexval d with
  | none => .error .hex
  | some ds => .ok (identOfDigits ds)

/-- `UuidDecodeFn(n, t)` (rules R120, R125): length, then hyphens, then digits. -/
def uuidDecodeFn (n : BitVec 8) (t : Text) : Except ErrClass Ident :=
  if n = 36 then
    if hyphensInPlace t then decodeHexDigits (uuidDigitChars t) else .error .hex
  else if n = 32 then decodeHexDigits (slice t 0 32)
  else .error .shape

/-- The 32 digits `h` of rule R121, high nibble first. -/
def hexDigitsOf (id : Ident) : Vector Byte 32 :=
  Vector.ofFn fun k =>
    let b : Byte := id[k.val / 2]'(by omega)
    if k.val % 2 = 0 then hexl (b.extractLsb' 4 4) else hexl (b.extractLsb' 0 4)

/-- The digits with the hyphens put in (rules R121, R122). -/
def withHyphens (h : List Byte) : List Byte :=
  h.take 8 ++ [hyphen] ++ (h.drop 8).take 4 ++ [hyphen] ++ (h.drop 12).take 4 ++ [hyphen]
    ++ (h.drop 16).take 4 ++ [hyphen] ++ h.drop 20

/-- `UuidEncodeFn(ID)` (rule R121): 32 digits and 4 hyphens. -/
def uuidEncodeFn (id : Ident) : Text :=
  Vector.ofFn fun i => (withHyphens (hexDigitsOf id).toList).getD i.val 0

/-- UUID_DECODE up to its completion (rule R126). -/
def uuidDecodeOp (n : BitVec 8) (t : Text) : Except ErrClass Results :=
  match uuidDecodeFn n t with
  | .ok id => .ok (successResults kindNone 0 Text.zero id)
  | .error e => .error e

/-- UUID_DECODE (rule R126). -/
def execUuidDecode (s : State) : Host.Outcome State Fault Refusal :=
  .next (finish kindNone (uuidDecodeOp s.captured.lenQ s.captured.textQ) s)

/-- UUID_ENCODE (rule R127); it never raises (rule R161). -/
def execUuidEncode (s : State) : Host.Outcome State Fault Refusal :=
  .next (complete (successResults kindNone 36 (uuidEncodeFn s.captured.idQ) s.captured.idQ) s)

end Sys2Proof.Machine
end

