-- ==== Sys2Proof/Machine/Detector.lean ====
section
/-! DEFINITION. The type detector and the codec dispatcher (42_dispatch.md): CLASSIFY, CONVERT and the
reserved operation codes. -/

namespace Sys2Proof.Machine

/-- Whether every character of a list has a value. -/
def allInTable {α : Type} (f : Byte → Option α) (cs : List Byte) : Bool := cs.all fun c => (f c).isSome

/-- `ClassifyFn(n, t)` (rule R140). -/
def classifyFn (n : BitVec 8) (t : Text) : Kind :=
  if n = 26 ∧ allInTable sym (slice t 0 26) then .ulid
  else if n = 36 ∧ hyphensInPlace t then .uuid
  else if n = 32 ∧ allInTable hexval (slice t 0 32) then .guid
  else .unrecognized

/-- CLASSIFY up to its completion (rule R145). -/
def classifyOp (n : BitVec 8) (t : Text) : Except ErrClass Results :=
  match classifyFn n t with
  | .unrecognized => .error .shape
  | .ulid => .ok (successResults Kind.ulid.code 0 Text.zero Ident.zero)
  | .uuid => .ok (successResults Kind.uuid.code 0 Text.zero Ident.zero)
  | .guid => .ok (successResults Kind.guid.code 0 Text.zero Ident.zero)

/-- CONVERT's second branch (rule R146): a UUID or GUID text becomes a ULID text. -/
def convertToUlid (k : Kind) (n : BitVec 8) (t : Text) : Except ErrClass Results :=
  match uuidDecodeFn n t with
  | .ok id => .ok (successResults k.code 26 (padText (ulidEncodeFn (identValue id))) id)
  | .error e => .error e

/-- CONVERT's first branch (rule R146): a ULID text becomes a UUID text. -/
def convertToUuid (n : BitVec 8) (t : Text) : Except ErrClass Results :=
  match ulidDecodeFn n t with
  | .ok id => .ok (successResults Kind.ulid.code 36 (uuidEncodeFn id) id)
  | .error e => .error e

/-- CONVERT up to its completion (rule R146). -/
def convertOp (n : BitVec 8) (t : Text) : Except ErrClass Results :=
  match classifyFn n t with
  | .unrecognized => .error .shape
  | .ulid => convertToUuid n t
  | .uuid => convertToUlid .uuid n t
  | .guid => convertToUlid .guid n t

/-- CLASSIFY (rule R145); `KIND` keeps the verdict if it raises (rule R163). -/
def execClassify (s : State) : Host.Outcome State Fault Refusal :=
  .next (finish (classifyFn s.captured.lenQ s.captured.textQ).code
    (classifyOp s.captured.lenQ s.captured.textQ) s)

/-- CONVERT (rule R146); `KIND` keeps the verdict if it raises (rule R163). -/
def execConvert (s : State) : Host.Outcome State Fault Refusal :=
  .next (finish (classifyFn s.captured.lenQ s.captured.textQ).code
    (convertOp s.captured.lenQ s.captured.textQ) s)

/-- The reserved codes 0b110 and 0b111 (rule R150): ILLEGAL_OP, nothing else looked at (rule R166). -/
def execReserved (s : State) : Host.Outcome State Fault Refusal :=
  .next (raiseError .illegalOp kindNone s)

end Sys2Proof.Machine
end

