-- ==== Sys2Proof/Machine/Dispatch.lean ====
section
/-! DEFINITION. `Execute` by operation (rules R32, R72): the completion of each operation. -/

namespace Sys2Proof.Machine

def exec (i : Instr) (s : State) : Host.Outcome State Fault Refusal :=
  match i with
  | .convert => Sys2Proof.Machine.execConvert s
  | .classify => Sys2Proof.Machine.execClassify s
  | .ulidDecode => Sys2Proof.Machine.execUlidDecode s
  | .ulidEncode => Sys2Proof.Machine.execUlidEncode s
  | .uuidDecode => Sys2Proof.Machine.execUuidDecode s
  | .uuidEncode => Sys2Proof.Machine.execUuidEncode s

end Sys2Proof.Machine
end

