-- ==== Sys2Proof/Machine/Clock.lean ====
section
/-! DEFINITION. One rising edge of CLK (rules R24, R30 to R32, R167, R180 to R182), and what the host does
before the next one (rule R89, log 2). -/

namespace Sys2Proof.Machine

/-- The completion due on an edge (rule R32): the operation `OP_Q` selects, or the reserved rule (R150). -/
def completionEdge (s : State) : Host.Outcome State Fault Refusal :=
  match selectedOp s with
  | .ok i => exec i s
  | .error _ => execReserved s

/-- Whether a completion is due on the coming edge: `LATENCY` edges after the accepted start (rule R32). -/
def completionDue (s : State) : Bool := decide (s.cyclesLeft ≤ 1)

/-- What CORE does on a rising edge, in the ranking of rule R167: reset first; nothing is specified before the
first reset (rule R182); BUSY, a completion if it is due, a start request being ignored (rule R31); IDLE, a
start request is accepted (rule R30) and without one every register holds (rules R38, R177). -/
def coreEdge (s : State) : Host.Outcome State Fault Refusal :=
  if s.inputs.rst = 1 then .next (resetEdge s)
  else if s.sawReset = false then .next (unspecifyAll s)
  else
    match s.fsm with
    | .busy => if completionDue s then completionEdge s else .next (busyEdge s)
    | .idle => if s.inputs.start = 1 then .next (acceptStart s) else .next s

/-- The ports with no request on them. -/
def withoutRequest (p : Inputs) : Inputs := { p with rst := 0, start := 0 }

/-- The ports and the moves left after the host has moved, given the `DONE` it sees (log 2). With no move left
the ports keep their values; a `wait` holds `START = 0` until `DONE = 1` (rule R89). -/
def hostPorts (done : BitVec 1) : Inputs → List HostMove → Inputs × List HostMove
  | p, [] => (p, [])
  | _, .drive q :: rest => (q, rest)
  | p, .wait :: rest =>
    if done = 1 then hostPorts done (withoutRequest p) rest else (withoutRequest p, .wait :: rest)

/-- The host's move between two edges: it changes its ports and its script and nothing else (rules R59, R188;
log 2). -/
def hostMove (s : State) : State :=
  { s with
    inputs := (hostPorts (readDone s) s.inputs s.script).1
    script := (hostPorts (readDone s) s.inputs s.script).2 }

/-- One edge and the host's move after it. -/
def edgeThenHost (s : State) : Host.Outcome State Fault Refusal :=
  match coreEdge s with
  | .next t => .next (hostMove t)
  | .fault f => .fault f
  | .refused r => .refused r

/-- An accepted start of the code `op` has just happened with the captured operands as they are, and its
completion is due on the next edge (rules R30, R32; log 12). -/
def stageOperation (op : BitVec 3) (s : State) : State :=
  { s with
    inputs := withoutRequest s.inputs
    fsm := .busy
    done := 0
    captured := { s.captured with opQ := op }
    cyclesLeft := 1
    sawReset := true }

end Sys2Proof.Machine
end

