-- ==== Sys2Proof/Machine/Step.lean ====
section
/-! DEFINITION. One step of the machine: one rising edge of CLK, then the host's move (log 1). -/

namespace Sys2Proof.Machine

/-- One step: CORE's edge, then the host's move. -/
def step (s : State) : Host.Outcome State Fault Refusal := edgeThenHost s

/-- `s` with the operation of this word as the one the very next step completes: the word's bits 2:0 in
`OP_Q`, where a completion takes its operation from, CORE BUSY and its completion due (log 12). -/
def State.withFetchWord (s : State) (nbits w : Nat) : State :=
  stageOperation (BitVec.ofNat 3 (w % 2 ^ nbits)) s

end Sys2Proof.Machine
end

