-- ==== Sys2Proof/Machine/Script.lean ====
section
/-! DEFINITION. The transaction-script notation of rule R89: what the host drives for each line (rules R52,
R89), and what an EXPECT line checks. -/

namespace Sys2Proof.Machine

/-- `IN_TEXT` for a text: byte i of the text for i < min(n, 36), and whatever the host leaves there past it
(rule R52, log 8). -/
def textPort (chars : List Byte) (left : Text) : Text :=
  Vector.ofFn fun i => if h : i.val < chars.length then chars[i.val] else left[i.val]

/-- `IN_LEN` for a text of n bytes: min(n, 255) (rule R52). -/
def lengthPort (chars : List Byte) : BitVec 8 := BitVec.ofNat 8 (min chars.length 255)

/-- What the host drives for one line (rule R89), where `left` is what it leaves on the ports the line does
not say (`-` in rule R89, log 8). A check drives nothing. -/
def lineMoves (left : Inputs) : ScriptLine → List HostMove
  | .reset => [.drive { left with rst := 1, start := 0 }]
  | .text i chars =>
    [.drive { left with
      rst := 0, start := 1, op := encode i, inLen := lengthPort chars, inText := textPort chars left.inText }]
  | .ident i id => [.drive { left with rst := 0, start := 1, op := encode i, inId := id }]
  | .rawOp n => [.drive { left with rst := 0, start := 1, op := BitVec.ofNat 3 n }]
  | .wait => [.wait]
  | .expect _ _ => []

/-- What the host drives for a script; after the last line it drives no request, so that `START` is 1 for one
edge only (rule R89). -/
def scriptMoves (left : Inputs) (lines : List ScriptLine) : List HostMove :=
  lines.flatMap (lineMoves left) ++ [.drive (withoutRequest left)]

/-- What the k-th read of an output port shows, as a number; a buffer is read big-endian (rules R23, R54). -/
def portValue (k : Nat) (s : State) : OutPort → Nat
  | .busy => (readBusy s).toNat
  | .done => (readDone s).toNat
  | .err => (readErr k s).toNat
  | .errClass => (readErrClass k s).toNat
  | .kind => (readKind k s).toNat
  | .outLen => (readOutLen k s).toNat
  | .outText => memRead (readOutText k s).toList 0 36
  | .outId => memRead (readOutId k s).toList 0 16
  | .status => (readStatus k s).toNat

/-- `EXPECT <register> = <value>`: the check of the k-th read (rule R89). -/
def expectHolds (k : Nat) (s : State) (port : OutPort) (value : Nat) : Bool :=
  portValue k s port == value

end Sys2Proof.Machine
end

