-- ==== Sys2Proof/Safety.lean ====
section
/-! DEFINITION. What a safe run keeps (the invariants), and the terms the statements use. -/

namespace Sys2Proof.Machine

/-- The result registers as a completion or a reset leaves them: only the listed codes and lengths are ever
written, `ERR_CLASS = 0` exactly when `ERR = 0`, the text is 0x00 past `OUT_LEN`, and a failure has empty
outputs (rules R27, R28, R29, R33, R34, R163). -/
abbrev legalResults (r : Results) : Prop :=
  r.errClass.toNat ≤ 4 ∧ (r.errClass = 0 ↔ r.err = 0) ∧ r.kind.toNat ≤ 4
    ∧ (r.outLen = 0 ∨ r.outLen = 26 ∨ r.outLen = 36)
    ∧ (∀ i : Fin 36, r.outLen.toNat ≤ i.val → r.outText[i] = 0)
    ∧ (r.err = 1 → r.outLen = 0 ∧ r.outText = Text.zero ∧ r.outId = Ident.zero)

/-- The invariant of the registers: once reset, `DONE = 0` while BUSY (rules R26, R30), the result registers
are legal while IDLE (rule R38), and they hold their reset values while IDLE with `DONE = 0` (rule R185). -/
abbrev State.consistent (s : State) : Prop :=
  s.sawReset = true →
    (s.fsm = .busy → s.done = 0) ∧ (s.fsm = .idle → legalResults s.results)
      ∧ (s.fsm = .idle → s.done = 0 → s.results = resetResults)

/-- The invariant of the cycle counter: once reset, a BUSY machine has at least one edge to its completion
and no more than `LATENCY` of what it captured (rules R9, R32; log 3). -/
def State.timely (s : State) : Prop :=
  s.sawReset = true → s.fsm = .busy → 1 ≤ s.cyclesLeft ∧ s.cyclesLeft ≤ Config.latency s.captured

/-- The next edge is an ordinary one: CORE has been reset and `RST = 0` on the port. -/
abbrev State.ordinary (s : State) : Prop := s.sawReset = true ∧ s.inputs.rst = 0

/-- A completion falls on the next edge (rule R32). -/
abbrev State.completing (s : State) : Prop := s.ordinary ∧ s.fsm = .busy ∧ s.cyclesLeft ≤ 1

/-- A start is accepted on the next edge (rule R30). -/
abbrev State.accepting (s : State) : Prop := s.ordinary ∧ s.fsm = .idle ∧ s.inputs.start = 1

/-- The host drives no reset, now or later. -/
abbrev State.noResetAhead (s : State) : Prop :=
  s.inputs.rst = 0 ∧ ∀ p, HostMove.drive p ∈ s.script → p.rst = 0

/-- The host drives no start request later. -/
abbrev State.noStartAhead (s : State) : Prop := ∀ p, HostMove.drive p ∈ s.script → p.start = 0

/-- The state after a completion that writes `r` in state `s` (rule R32): nothing else changes. That the cycle counter
is among what does not is log 16's choice, and the model's own fields are those of logs 2, 6 and 7. -/
def outcomeState (s : State) (r : Results) : State := { s with results := r, done := 1, fsm := .idle }

/-- The failure outputs of rule R163 with this class code and this kind code. -/
def emptyOutputs (cls kind : BitVec 3) : Results :=
  { err := 1, errClass := cls, kind := kind, outLen := 0, outText := Text.zero, outId := Ident.zero }

/-- Everything but the result registers, `DONE` and `FSM` is as it was. -/
abbrev completionFrame (s t : State) : Prop :=
  t.inputs = s.inputs ∧ t.captured = s.captured ∧ t.cyclesLeft = s.cyclesLeft ∧ t.sawReset = s.sawReset
    ∧ t.draws = s.draws ∧ t.script = s.script

/-- `V = sum over j in 0..15 of ID[j] * 256^(15-j)` (rule R54). -/
def identNumber (id : Ident) : Nat := ∑ j : Fin 16, id[j].toNat * 256 ^ (15 - j.val)

/-- `W = sum over i in 0..25 of sym(t[i]) * 32^(25-i)` (rule R85). -/
def symbolNumber (v : Fin 26 → BitVec 5) : Nat := ∑ i : Fin 26, (v i).toNat * 32 ^ (25 - i.val)

/-- The first 26 characters of a text have these values (rule R81). -/
def spellsSymbols (t : Text) (v : Fin 26 → BitVec 5) : Prop := ∀ i : Fin 26, sym t[i.val] = some (v i)

/-- The character position of hex digit k in a UUID text: k plus the hyphens before it (rule R77). -/
def uuidDigitPos (k : Fin 32) : Fin 36 :=
  ⟨k.val + ((if 8 ≤ k.val then 1 else 0) + (if 12 ≤ k.val then 1 else 0) + (if 16 ≤ k.val then 1 else 0)
    + (if 20 ≤ k.val then 1 else 0)), by split <;> split <;> split <;> split <;> omega⟩

/-- The four hyphens of a UUID text (rule R77). -/
def hasHyphens (t : Text) : Prop := t[8] = 0x2D ∧ t[13] = 0x2D ∧ t[18] = 0x2D ∧ t[23] = 0x2D

/-- The 32 digit positions of a hyphenated text hold these digits (rules R77, R83). -/
def spellsUuidDigits (t : Text) (d : Fin 32 → BitVec 4) : Prop :=
  ∀ k : Fin 32, hexval t[uuidDigitPos k] = some (d k)

/-- The first 32 characters of a text are these digits (rules R78, R83). -/
def spellsGuidDigits (t : Text) (d : Fin 32 → BitVec 4) : Prop :=
  ∀ k : Fin 32, hexval t[k.val] = some (d k)

/-- `ID[j] = {d[2j], d[2j+1]}` (rule R88). -/
def identOfNibbles (id : Ident) (d : Fin 32 → BitVec 4) : Prop :=
  ∀ j : Fin 16, id[j].toNat = 16 * (d ⟨2 * j.val, by omega⟩).toNat + (d ⟨2 * j.val + 1, by omega⟩).toNat

/-- A text is the ULID form of an identifier, 0x00 past character 25: character i is `ALPHA` of the five bits
`W[129-5i : 125-5i]` (rules R34, R76, R101, R107). -/
def isUlidTextOf (t : Text) (id : Ident) : Prop :=
  (∀ i : Fin 26, t[i.val] = alpha (BitVec.ofNat 5 (identNumber id / 32 ^ (25 - i.val))))
    ∧ ∀ i : Fin 36, 26 ≤ i.val → t[i] = 0

/-- A text is the hyphenated lower-case form of an identifier, high nibble first (rules R55, R77, R121, R122). -/
def isUuidTextOf (t : Text) (id : Ident) : Prop :=
  hasHyphens t ∧
    ∀ j : Fin 16,
      t[uuidDigitPos ⟨2 * j.val, by omega⟩] = hexl (BitVec.ofNat 4 (id[j].toNat / 16))
        ∧ t[uuidDigitPos ⟨2 * j.val + 1, by omega⟩] = hexl (BitVec.ofNat 4 (id[j].toNat % 16))

/-- The lower-case twin of a letter; any other byte is itself (rule R80). -/
def lowerCase (c : Byte) : Byte := if 0x41 ≤ c ∧ c ≤ 0x5A then c + 0x20 else c

/-- A text operand of length `n` fits the ULID shape (rule R140). -/
def ulidShape (n : BitVec 8) (t : Text) : Prop := n = 26 ∧ ∀ i : Fin 26, sym t[i.val] ≠ none

/-- A text operand of length `n` fits the UUID shape (rule R140). -/
def uuidShape (n : BitVec 8) (t : Text) : Prop := n = 36 ∧ hasHyphens t

/-- A text operand of length `n` fits the GUID shape (rule R140). -/
def guidShape (n : BitVec 8) (t : Text) : Prop := n = 32 ∧ ∀ k : Fin 32, hexval t[k.val] ≠ none

end Sys2Proof.Machine
end

