-- ==== Sys2Proof/Certificates/Slice0/Obligations.lean ====
section
/-! DEFINITION. The statements for the provers. -/

open Sys2Proof Sys2Proof.Machine

/-! ### Encoding -/

/-- The eight `OP` codes decode as rule R71's table says, and the encoder gives them back. -/
def Obligations.OpCodesDecodeAsTheTableSays : Prop :=
  decode 0b000 = .ok .convert ∧ decode 0b001 = .ok .classify ∧ decode 0b010 = .ok .ulidDecode
    ∧ decode 0b011 = .ok .ulidEncode ∧ decode 0b100 = .ok .uuidDecode ∧ decode 0b101 = .ok .uuidEncode
    ∧ decode 0b110 = .error (.reservedOp 0b110) ∧ decode 0b111 = .error (.reservedOp 0b111)

/-- Every operation's code decodes to it, and a code that decodes to an operation is that operation's code. -/
def Obligations.OpCodesDecodeAndEncodeAgree : Prop :=
  (∀ i : Instr, i.wf = true ∧ decode (encode i) = .ok i) ∧ ∀ (op : BitVec 3) (i : Instr), decode op = .ok i → encode i = op

/-- Rules R81 and R82: `ALPHA[v]` is byte v of the string `0123456789ABCDEFGHJKMNPQRSTVWXYZ` and `sym` reads it
back; a byte has value v exactly when its upper-case form is `ALPHA[v]`, that is, by rule R81's table, when it is
`ALPHA[v]` or, for v of 10 and up, its lower-case twin; and I, L, O and U have no value in either case. -/
def Obligations.AlphabetReadsBack : Prop :=
  (∀ v : BitVec 5,
    alpha v = (#v[0x30, 0x31, 0x32, 0x33, 0x34, 0x35, 0x36, 0x37, 0x38, 0x39, 0x41, 0x42, 0x43, 0x44, 0x45, 0x46,
      0x47, 0x48, 0x4A, 0x4B, 0x4D, 0x4E, 0x50, 0x51, 0x52, 0x53, 0x54, 0x56, 0x57, 0x58, 0x59, 0x5A]
        : Vector Byte 32)[v.toNat]'v.isLt
      ∧ sym (alpha v) = some v)
    ∧ (∀ (c : Byte) (v : BitVec 5), sym c = some v ↔ upperCase c = alpha v)
    ∧ (∀ (c : Byte) (v : BitVec 5), sym c = some v ↔ c = alpha v ∨ (10 ≤ v.toNat ∧ c = alpha v + 0x20))
    ∧ (∀ c ∈ ([0x49, 0x4C, 0x4F, 0x55, 0x69, 0x6C, 0x6F, 0x75] : List Byte), sym c = none)

/-- Rules R83 and R84: `HEXL[v]` is byte v of the string `0123456789abcdef` and `hexval` reads it back; a byte has
hex value v exactly when its lower-case form is `HEXL[v]`, that is, by rule R83's table, when it is in
`'0'..'9'`, `'a'..'f'` or `'A'..'F'` and v is what the row says. -/
def Obligations.HexDigitsReadBack : Prop :=
  (∀ v : BitVec 4,
    hexl v = (#v[0x30, 0x31, 0x32, 0x33, 0x34, 0x35, 0x36, 0x37, 0x38, 0x39, 0x61, 0x62, 0x63, 0x64, 0x65, 0x66]
        : Vector Byte 16)[v.toNat]'v.isLt
      ∧ hexval (hexl v) = some v)
    ∧ (∀ (c : Byte) (v : BitVec 4), hexval c = some v ↔ lowerCase c = hexl v)
    ∧ (∀ (c : Byte) (v : BitVec 4), hexval c = some v ↔
        (0x30 ≤ c.toNat ∧ c.toNat ≤ 0x39 ∧ v.toNat = c.toNat - 0x30)
          ∨ (0x61 ≤ c.toNat ∧ c.toNat ≤ 0x66 ∧ v.toNat = c.toNat - 0x57)
          ∨ (0x41 ≤ c.toNat ∧ c.toNat ≤ 0x46 ∧ v.toNat = c.toNat - 0x37))

/-! ### Reset, starts and completions -/

/-- `State.reset` holds what rule R42 gives; nothing is said of the registers it leaves unspecified. -/
def Obligations.ResetStateHoldsTheResetValues : Prop :=
  State.reset.fsm = .idle ∧ State.reset.done = 0 ∧ State.reset.results = ⟨0, 0, 0, 0, Text.zero, Ident.zero⟩
    ∧ readBusy State.reset = 0 ∧ ∀ k, readStatus k State.reset = 0x0000

/-- Rule R180: one edge with `RST = 1`, from any state (before any reset, BUSY, already reset), gives the reset
values. -/
def Obligations.ResetEdgeGivesTheResetValues : Prop :=
  ∀ s : State, s.inputs.rst = 1 →
    ∃ t, step s = .next t ∧ t.fsm = .idle ∧ t.done = 0 ∧ t.results = ⟨0, 0, 0, 0, Text.zero, Ident.zero⟩
      ∧ t.sawReset = true ∧ ∀ k, readStatus k t = 0

/-- Rule R181: a reset cuts off the operation in progress, if there is one, for good. After the edge, whatever
`FSM` was and `START` was on it, CORE is IDLE with the reset values, and as long as the host requests neither a start nor a reset no completion
follows: `DONE` stays 0 and the results stay the reset values. -/
def Obligations.ResetCutsOffTheOperationForGood : Prop :=
  ∀ s : State, s.inputs.rst = 1 → s.noStartAhead → (∀ p, HostMove.drive p ∈ s.script → p.rst = 0) →
    ∃ t, step s = .next t ∧ t.fsm = .idle ∧ t.done = 0 ∧
      ((t.inputs.start = 0 ∧ t.inputs.rst = 0) → ∀ n, ∃ u : State, Sys2Proof.core.run n t = .next u ∧ u.fsm = .idle ∧ u.done = 0
        ∧ u.results = ⟨0, 0, 0, 0, Text.zero, Ident.zero⟩)

/-- Rule R184: from any state, power-on included, one edge with `RST = 1` and then a start request give an
accepted start of what the ports then hold. -/
def Obligations.ResetThenStartIsAccepted : Prop :=
  ∀ (s : State) (p : Inputs) (rest : List HostMove), s.inputs.rst = 1 → s.script = .drive p :: rest →
    p.rst = 0 → p.start = 1 →
    ∃ t : State, Sys2Proof.core.run 2 s = .next t ∧ t.fsm = .busy ∧ t.done = 0
      ∧ t.captured = ⟨p.op, p.inLen, p.inText, p.inId⟩

/-- Rule R30: an accepted start captures the inputs, clears `DONE` and makes CORE BUSY. -/
def Obligations.AcceptedStartCapturesTheInputs : Prop :=
  ∀ s : State, s.accepting →
    ∃ t, step s = .next t
      ∧ t.captured = ⟨s.inputs.op, s.inputs.inLen, s.inputs.inText, s.inputs.inId⟩
      ∧ t.done = 0 ∧ t.fsm = .busy ∧ readBusy t = 1 ∧ t.sawReset = true

/-- Rule R31: while BUSY, what the host drives on `START` and on every other port but `RST` changes no register,
and the completion, if it falls on this edge, is the same. Result registers are compared where they are
specified (log 6). -/
def Obligations.BusyIgnoresTheInputPorts : Prop :=
  ∀ (s : State) (p : Inputs), s.ordinary → s.fsm = .busy → p.rst = 0 →
    ∃ t u, step s = .next t ∧ step { s with inputs := p } = .next u
      ∧ u.fsm = t.fsm ∧ u.done = t.done ∧ u.captured = t.captured ∧ u.cyclesLeft = t.cyclesLeft
      ∧ (t.fsm = .idle → u.results = t.results)

/-- An edge with `FSM = IDLE` and neither a start request nor a reset changes no register of CORE: the result
registers by rule R38, `DONE` by rule R26, the captured registers (rule R37) by rule R177. That `cyclesLeft`
and `draws` hold too is the model's own (logs 3 and 6). -/
def Obligations.IdleEdgeHoldsEveryRegister : Prop :=
  ∀ s : State, s.ordinary → s.fsm = .idle → s.inputs.start = 0 →
    ∃ t, step s = .next t ∧ t.fsm = .idle ∧ t.done = s.done ∧ t.results = s.results ∧ t.captured = s.captured
      ∧ t.cyclesLeft = s.cyclesLeft ∧ t.sawReset = s.sawReset ∧ t.draws = s.draws

/-- Rule R24: `FSM` goes BUSY by an accepted start only and IDLE by a completion or a reset only. -/
def Obligations.FsmMovesByThreeEventsOnly : Prop :=
  ∀ s : State, s.sawReset = true →
    ∃ t, step s = .next t ∧
      ((s.inputs.rst = 1 → t.fsm = .idle) ∧ (s.accepting → t.fsm = .busy) ∧ (s.completing → t.fsm = .idle)
        ∧ (s.inputs.rst ≠ 1 → ¬ s.accepting → ¬ s.completing → t.fsm = s.fsm))

/-- Rule R26: `DONE` is cleared by an accepted start and by reset, set by a completion, and holds on every
other edge. -/
def Obligations.DoneFollowsItsFourEvents : Prop :=
  ∀ s : State, s.sawReset = true →
    ∃ t, step s = .next t ∧
      ((s.inputs.rst = 1 → t.done = 0) ∧ (s.accepting → t.done = 0) ∧ (s.completing → t.done = 1)
        ∧ (s.inputs.rst ≠ 1 → ¬ s.accepting → ¬ s.completing → t.done = s.done))

/-- On a completion edge the step is `exec` of the operation whose code `OP_Q` holds, and then the host's move,
which changes the ports and the script only (rules R32, R71; log 2). -/
def Obligations.StepRunsTheCapturedOperation : Prop :=
  ∀ (s : State) (i : Instr), s.completing → decode s.captured.opQ = .ok i →
    ∃ t, exec i s = .next t ∧
      step s = .next { t with
        inputs := (hostPorts t.done s.inputs s.script).1, script := (hostPorts t.done s.inputs s.script).2 }

/-- A word that decodes to an operation, placed with `withFetchWord`, is the operation the very next step runs
(the model's own, log 12). -/
def Obligations.StepRunsAPlacedWord : Prop :=
  ∀ (s : State) (nbits w : Nat) (i : Instr), decodeTableWord nbits w = some i →
    ∃ t, exec i (s.withFetchWord nbits w) = .next t ∧ step (s.withFetchWord nbits w) = .next (hostMove t)

/-- Rule R150: on its completion edge either reserved code writes ILLEGAL_OP and the empty outputs, and leaves CORE
IDLE with `DONE = 1`. When that edge comes is AcceptedStartCompletesAfterLatency's reserved clause. -/
def Obligations.ReservedCodesCompleteWithIllegalOp : Prop :=
  ∀ s : State, s.completing → (s.captured.opQ = 0b110 ∨ s.captured.opQ = 0b111) →
    ∃ t, step s = .next t ∧ t.results = ⟨1, 4, 0, 0, Text.zero, Ident.zero⟩ ∧ t.done = 1 ∧ t.fsm = .idle
      ∧ t.captured = s.captured ∧ ∀ k, readStatus k t = 0x0026

/-- Every edge gives a next state: CORE never hangs and never stops (rules R72, R162). -/
def Obligations.EveryEdgeGivesANextState : Prop :=
  ∀ s : State, ∃ t, step s = .next t

/-- Rule R32: after an accepted start, if no reset intervenes, CORE is BUSY with `DONE = 0` until the edge that
is `LATENCY` cycles later, and there it has the results of the operation on what it captured, a reserved code
included (rule R72). `LATENCY` is between 1 and `MAX_LATENCY` (rules R9, R191). -/
def Obligations.AcceptedStartCompletesAfterLatency : Prop :=
  ∀ s : State, s.accepting → s.noResetAhead →
    let c : Captured := ⟨s.inputs.op, s.inputs.inLen, s.inputs.inText, s.inputs.inId⟩
    1 ≤ Config.latency c ∧ Config.latency c ≤ Config.maxLatency
      ∧ (∀ n, 1 ≤ n → n ≤ Config.latency c →
          ∃ t : State, Sys2Proof.core.run n s = .next t ∧ t.fsm = .busy ∧ t.done = 0)
      ∧ ∃ t : State, Sys2Proof.core.run (Config.latency c + 1) s = .next t ∧ t.done = 1 ∧ t.fsm = .idle
          ∧ t.captured = c
          ∧ (∀ i, decode s.inputs.op = .ok i →
              ∃ u, exec i { s with captured := c } = .next u ∧ t.results = u.results)
          ∧ (s.inputs.op = 0b110 ∨ s.inputs.op = 0b111 → t.results = ⟨1, 4, 0, 0, Text.zero, Ident.zero⟩)

/-! ### The status view -/

/-- Rule R36: `STATUS` packs the registers, bit 15 reads 0, bits 1:0 are `DONE` and `BUSY` at all times,
and no input port reaches it. -/
def Obligations.StatusPacksTheRegisters : Prop :=
  ∀ (s : State) (k : Nat),
    (resultsSpecified s = true →
      (readStatus k s).toNat = (readBusy s).toNat + 2 * s.done.toNat + 4 * s.results.err.toNat
        + 8 * s.results.errClass.toNat + 64 * s.results.kind.toNat + 512 * s.results.outLen.toNat)
    ∧ (readStatus k s).toNat < 2 ^ 15
    ∧ (readStatus k s).toNat % 4 = (readBusy s).toNat + 2 * s.done.toNat
    ∧ ∀ p : Inputs, readStatus k { s with inputs := p } = readStatus k s

/-- Every read of an output port shows its register: `BUSY` and `DONE` at all times, and the six result ports after
the first reset while CORE is IDLE (rules R23, R25, R26, R38), which, in every state that meets the register
invariant, is so whenever `DONE = 1` (rule R185). -/
def Obligations.OutputPortsShowTheirRegisters : Prop :=
  ∀ (s : State) (k : Nat),
    (readBusy s = 1 ↔ s.fsm = .busy) ∧ readDone s = s.done
    ∧ (s.sawReset = true → (s.fsm = .idle ∨ (s.consistent ∧ s.done = 1)) →
        readErr k s = s.results.err ∧ readErrClass k s = s.results.errClass ∧ readKind k s = s.results.kind
          ∧ readOutLen k s = s.results.outLen ∧ readOutText k s = s.results.outText
          ∧ readOutId k s = s.results.outId)

/-! ### Codec-ULID -/

/-- ULID_DECODE of 26 characters of the alphabet, the first below 8, completes with the identifier whose value
they spell (rules R85, R100, R106). -/
def Obligations.UlidDecodeGivesTheSpelledIdentifier : Prop :=
  ∀ (s : State) (v : Fin 26 → BitVec 5), s.captured.lenQ = 26 → spellsSymbols s.captured.textQ v → (v 0).toNat < 8 →
    ∃ id, exec .ulidDecode s = .next (outcomeState s ⟨0, 0, 0, 0, Text.zero, id⟩) ∧ identNumber id = symbolNumber v

/-- Rule R105: ULID_DECODE fails in its check order: length, then character set, then range. -/
def Obligations.UlidDecodeFailsInCheckOrder : Prop :=
  ∀ s : State,
    (s.captured.lenQ ≠ 26 → exec .ulidDecode s = .next (outcomeState s (emptyOutputs 1 0)))
    ∧ (s.captured.lenQ = 26 → (∃ i : Fin 26, sym s.captured.textQ[i.val] = none) →
        exec .ulidDecode s = .next (outcomeState s (emptyOutputs 1 0)))
    ∧ (∀ v : Fin 26 → BitVec 5, s.captured.lenQ = 26 → spellsSymbols s.captured.textQ v → 8 ≤ (v 0).toNat →
        exec .ulidDecode s = .next (outcomeState s (emptyOutputs 2 0)))

/-- Rule R107: ULID_ENCODE completes, for every identifier, with its 26 characters; character 0 is in
`'0'..'7'`. -/
def Obligations.UlidEncodeSpellsTheIdentifier : Prop :=
  ∀ s : State, ∃ txt : Text,
    exec .ulidEncode s = .next (outcomeState s ⟨0, 0, 0, 26, txt, s.captured.idQ⟩)
      ∧ isUlidTextOf txt s.captured.idQ ∧ 0x30 ≤ txt[0] ∧ txt[0] ≤ 0x37

/-- Rule R108: decoding the encoding of any identifier gives it back, whatever stands past character 25. -/
def Obligations.UlidEncodeThenDecodeIsIdentity : Prop :=
  ∀ s : State, ∃ t, exec .ulidEncode s = .next t ∧
    ∀ s' : State, s'.captured.lenQ = 26 →
      (∀ i : Fin 26, s'.captured.textQ[i.val] = t.results.outText[i.val]) →
      exec .ulidDecode s' = .next (outcomeState s' ⟨0, 0, 0, 0, Text.zero, s.captured.idQ⟩)

/-- Rule R109: encoding what ULID_DECODE gives for a text it accepts gives the text in upper case. -/
def Obligations.UlidDecodeThenEncodeIsUpperCase : Prop :=
  ∀ s t : State, exec .ulidDecode s = .next t → t.results.err = 0 →
    ∀ s' : State, s'.captured.idQ = t.results.outId →
      ∃ u, exec .ulidEncode s' = .next u ∧
        ∀ i : Fin 26, u.results.outText[i.val] = upperCase s.captured.textQ[i.val]

/-! ### Codec-UUID -/

/-- UUID_DECODE of a 36-character text with its hyphens in place and hex digits elsewhere, in either case,
completes with the identifier (rules R77, R88, R120, R126). -/
def Obligations.UuidDecodeReadsTheHyphenatedForm : Prop :=
  ∀ (s : State) (d : Fin 32 → BitVec 4), s.captured.lenQ = 36 → hasHyphens s.captured.textQ →
    spellsUuidDigits s.captured.textQ d →
    ∃ id, exec .uuidDecode s = .next (outcomeState s ⟨0, 0, 0, 0, Text.zero, id⟩) ∧ identOfNibbles id d

/-- UUID_DECODE of 32 hex digits completes with the identifier (rules R78, R88, R120, R126). -/
def Obligations.UuidDecodeReadsTheBareForm : Prop :=
  ∀ (s : State) (d : Fin 32 → BitVec 4), s.captured.lenQ = 32 → spellsGuidDigits s.captured.textQ d →
    ∃ id, exec .uuidDecode s = .next (outcomeState s ⟨0, 0, 0, 0, Text.zero, id⟩) ∧ identOfNibbles id d

/-- Rule R125: UUID_DECODE fails in its check order: length, then hyphens, then digits. -/
def Obligations.UuidDecodeFailsInCheckOrder : Prop :=
  ∀ s : State,
    (s.captured.lenQ ≠ 32 → s.captured.lenQ ≠ 36 →
        exec .uuidDecode s = .next (outcomeState s (emptyOutputs 1 0)))
    ∧ (s.captured.lenQ = 36 → ¬ hasHyphens s.captured.textQ →
        exec .uuidDecode s = .next (outcomeState s (emptyOutputs 3 0)))
    ∧ (s.captured.lenQ = 36 → (∃ k : Fin 32, hexval s.captured.textQ[uuidDigitPos k] = none) →
        exec .uuidDecode s = .next (outcomeState s (emptyOutputs 3 0)))
    ∧ (s.captured.lenQ = 32 → (∃ k : Fin 32, hexval s.captured.textQ[k.val] = none) →
        exec .uuidDecode s = .next (outcomeState s (emptyOutputs 3 0)))

/-- Rule R127: UUID_ENCODE completes, for every identifier, with its hyphenated lower-case form. -/
def Obligations.UuidEncodeRendersHyphenatedLowerHex : Prop :=
  ∀ s : State, ∃ txt : Text,
    exec .uuidEncode s = .next (outcomeState s ⟨0, 0, 0, 36, txt, s.captured.idQ⟩)
      ∧ isUuidTextOf txt s.captured.idQ

/-- Rule R128: decoding the encoding of any identifier gives it back, and so does decoding it with the hyphens
taken out. -/
def Obligations.UuidEncodeThenDecodeIsIdentity : Prop :=
  ∀ s : State, ∃ t, exec .uuidEncode s = .next t ∧
    (∀ s' : State, s'.captured.lenQ = 36 → s'.captured.textQ = t.results.outText →
      exec .uuidDecode s' = .next (outcomeState s' ⟨0, 0, 0, 0, Text.zero, s.captured.idQ⟩))
    ∧ (∀ s' : State, s'.captured.lenQ = 32 →
        (∀ k : Fin 32, s'.captured.textQ[k.val] = t.results.outText[uuidDigitPos k]) →
        exec .uuidDecode s' = .next (outcomeState s' ⟨0, 0, 0, 0, Text.zero, s.captured.idQ⟩))

/-! ### Detector and dispatcher -/

/-- Rule R145: CLASSIFY completes with the kind of the shape the text fits, and with SHAPE and
`KIND = UNRECOGNIZED` when it fits none. -/
def Obligations.ClassifyWritesTheVerdict : Prop :=
  ∀ s : State,
    (ulidShape s.captured.lenQ s.captured.textQ →
        exec .classify s = .next (outcomeState s ⟨0, 0, 1, 0, Text.zero, Ident.zero⟩))
    ∧ (uuidShape s.captured.lenQ s.captured.textQ →
        exec .classify s = .next (outcomeState s ⟨0, 0, 2, 0, Text.zero, Ident.zero⟩))
    ∧ (guidShape s.captured.lenQ s.captured.textQ →
        exec .classify s = .next (outcomeState s ⟨0, 0, 3, 0, Text.zero, Ident.zero⟩))
    ∧ (¬ ulidShape s.captured.lenQ s.captured.textQ → ¬ uuidShape s.captured.lenQ s.captured.textQ →
        ¬ guidShape s.captured.lenQ s.captured.textQ →
        exec .classify s = .next (outcomeState s (emptyOutputs 1 4)))

/-- CONVERT of a ULID text in range completes with the UUID form of the identifier it spells (rule R146). -/
def Obligations.ConvertTurnsUlidIntoUuid : Prop :=
  ∀ (s : State) (v : Fin 26 → BitVec 5), s.captured.lenQ = 26 → spellsSymbols s.captured.textQ v → (v 0).toNat < 8 →
    ∃ (id : Ident) (txt : Text), exec .convert s = .next (outcomeState s ⟨0, 0, 1, 36, txt, id⟩)
      ∧ identNumber id = symbolNumber v ∧ isUuidTextOf txt id

/-- CONVERT of a hyphenated UUID text completes with the ULID form of its identifier (rule R146). -/
def Obligations.ConvertTurnsUuidIntoUlid : Prop :=
  ∀ (s : State) (d : Fin 32 → BitVec 4), s.captured.lenQ = 36 → hasHyphens s.captured.textQ →
    spellsUuidDigits s.captured.textQ d →
    ∃ (id : Ident) (txt : Text), exec .convert s = .next (outcomeState s ⟨0, 0, 2, 26, txt, id⟩)
      ∧ identOfNibbles id d ∧ isUlidTextOf txt id

/-- CONVERT of a bare GUID text completes with the ULID form of its identifier (rule R146). -/
def Obligations.ConvertTurnsGuidIntoUlid : Prop :=
  ∀ (s : State) (d : Fin 32 → BitVec 4), s.captured.lenQ = 32 → spellsGuidDigits s.captured.textQ d →
    ∃ (id : Ident) (txt : Text), exec .convert s = .next (outcomeState s ⟨0, 0, 3, 26, txt, id⟩)
      ∧ identOfNibbles id d ∧ isUlidTextOf txt id

/-- CONVERT's failures: no shape gives SHAPE, a ULID text with first symbol 8 or more gives RANGE, a UUID text
with a non-hex digit gives HEX; `KIND` keeps the verdict (rules R146, R163). -/
def Obligations.ConvertFailsWithItsVerdict : Prop :=
  ∀ s : State,
    (¬ ulidShape s.captured.lenQ s.captured.textQ → ¬ uuidShape s.captured.lenQ s.captured.textQ →
        ¬ guidShape s.captured.lenQ s.captured.textQ →
        exec .convert s = .next (outcomeState s (emptyOutputs 1 4)))
    ∧ (∀ v : Fin 26 → BitVec 5, s.captured.lenQ = 26 → spellsSymbols s.captured.textQ v → 8 ≤ (v 0).toNat →
        exec .convert s = .next (outcomeState s (emptyOutputs 2 1)))
    ∧ (uuidShape s.captured.lenQ s.captured.textQ → (∃ k : Fin 32, hexval s.captured.textQ[uuidDigitPos k] = none) →
        exec .convert s = .next (outcomeState s (emptyOutputs 3 2)))

/-- Rule R144: after a verdict other than UNRECOGNIZED the decode fails only with RANGE (ULID, exactly when the
first symbol is 8 or more) or HEX (UUID, exactly when a digit position is not hex), and never for GUID. -/
def Obligations.VerdictBoundsTheDecodeFailure : Prop :=
  ∀ s : State, ∃ t, exec .convert s = .next t ∧
    (t.results.kind = 1 →
      (t.results.errClass = 0 ∨ t.results.errClass = 2)
        ∧ (t.results.errClass = 2 ↔ ∃ v, sym s.captured.textQ[0] = some v ∧ 8 ≤ v.toNat))
    ∧ (t.results.kind = 2 →
      (t.results.errClass = 0 ∨ t.results.errClass = 3)
        ∧ (t.results.errClass = 3 ↔ ∃ k : Fin 32, hexval s.captured.textQ[uuidDigitPos k] = none))
    ∧ (t.results.kind = 3 → t.results.errClass = 0)
    ∧ (t.results.kind = 4 → t.results.errClass = 1)

/-- A 36-character text with a misplaced hyphen and a 32-character text with a non-hex byte raise SHAPE from
CONVERT and CLASSIFY and HEX from UUID_DECODE (rule R148); `KIND` differs too, as rule R163 says (log 13). -/
def Obligations.BadShapeIsShapeForTheDispatcherAndHexForTheCodec : Prop :=
  ∀ s : State,
    (s.captured.lenQ = 36 ∧ ¬ hasHyphens s.captured.textQ
      ∨ s.captured.lenQ = 32 ∧ ∃ k : Fin 32, hexval s.captured.textQ[k.val] = none) →
    exec .convert s = .next (outcomeState s (emptyOutputs 1 4))
      ∧ exec .classify s = .next (outcomeState s (emptyOutputs 1 4))
      ∧ exec .uuidDecode s = .next (outcomeState s (emptyOutputs 3 0))

/-- Rule R149: converting what CONVERT gave for a ULID text gives the text in upper case; converting what it
gave for a UUID or GUID text gives the hyphenated lower-case form of that text. -/
def Obligations.ConvertTwiceNormalisesTheText : Prop :=
  (∀ s t : State, exec .convert s = .next t → s.captured.lenQ = 26 → t.results.err = 0 →
    ∀ s' : State, s'.captured.lenQ = 36 → s'.captured.textQ = t.results.outText →
      ∃ u, exec .convert s' = .next u ∧ u.results.err = 0 ∧ u.results.outLen = 26
        ∧ ∀ i : Fin 26, u.results.outText[i.val] = upperCase s.captured.textQ[i.val])
  ∧ (∀ s t : State, exec .convert s = .next t → t.results.err = 0 →
    ∀ s' : State, s'.captured.lenQ = 26 → (∀ i : Fin 26, s'.captured.textQ[i.val] = t.results.outText[i.val]) →
      (s.captured.lenQ = 36 →
        ∃ u, exec .convert s' = .next u ∧ u.results.err = 0 ∧ u.results.outLen = 36
          ∧ ∀ i : Fin 36, u.results.outText[i] = lowerCase s.captured.textQ[i])
      ∧ (s.captured.lenQ = 32 →
        ∃ u, exec .convert s' = .next u ∧ u.results.err = 0 ∧ u.results.outLen = 36 ∧ hasHyphens u.results.outText
          ∧ ∀ k : Fin 32, u.results.outText[uuidDigitPos k] = lowerCase s.captured.textQ[k.val]))

/-! ### All operations -/

/-- Every operation's `exec` answers a next state: it writes the result registers, `DONE` and `FSM`, and the captured
registers and the ports are as they were (rules R32, R58, R162). That it completes whatever `FSM` holds and leaves
the cycle counter as it is is log 16's design choice (rule R37 leaves the counter to the implementation), and
`sawReset`, `draws` and `script`, which it leaves too, are the model's own (logs 2, 6 and 7). -/
def Obligations.CompletionWritesOnlyTheResults : Prop :=
  ∀ (i : Instr) (s : State), ∃ t, exec i s = .next t ∧ t.done = 1 ∧ t.fsm = .idle ∧ completionFrame s t

/-- Every completion leaves legal result registers, and `KIND` is NONE exactly for the operations that do not
classify (rules R28, R29, R33, R34, R163). -/
def Obligations.CompletionsWriteLegalResults : Prop :=
  ∀ (i : Instr) (s : State), ∃ t, exec i s = .next t ∧ legalResults t.results
    ∧ (t.results.kind = 0 ↔ i ≠ .convert ∧ i ≠ .classify)

/-- Rule R53, and the part of rule R41 about results: a text operation's results depend on `LEN_Q` and the bytes
below it alone, an identifier operation's on `ID_Q` alone, and a reserved code's on nothing. -/
def Obligations.ResultsDependOnlyOnTheOperand : Prop :=
  (∀ (i : Instr) (s s' : State), i.operand = .text → s.captured.lenQ = s'.captured.lenQ →
    (∀ j : Fin 36, j.val < s.captured.lenQ.toNat → s.captured.textQ[j] = s'.captured.textQ[j]) →
    ∃ t t', exec i s = .next t ∧ exec i s' = .next t' ∧ t.results = t'.results)
  ∧ (∀ (i : Instr) (s s' : State), i.operand = .identifier → s.captured.idQ = s'.captured.idQ →
    ∃ t t', exec i s = .next t ∧ exec i s' = .next t' ∧ t.results = t'.results)
  ∧ (∀ s s' : State, ∃ t t', execReserved s = .next t ∧ execReserved s' = .next t' ∧ t.results = t'.results)

/-- Rule R52: the host drives min(n, 255) and the first bytes of the text, and every text operation gives the
same result for every text of more than 36 bytes. -/
def Obligations.LongTextsAreAllTheSame : Prop :=
  (∀ (chars : List Byte) (left : Text), (lengthPort chars).toNat = min chars.length 255
    ∧ ∀ (i : Fin 36) (h : i.val < chars.length), (textPort chars left)[i] = chars[i.val])
  ∧ (∀ (i : Instr) (s s' : State), i.operand = .text → 36 < s.captured.lenQ.toNat → 36 < s'.captured.lenQ.toNat →
    ∃ t t', exec i s = .next t ∧ exec i s' = .next t' ∧ t.results = t'.results)

/-! ### The host's script -/

/-- A text line makes CORE accept that operation with the length and the bytes of the text, an identifier line makes
it accept that operation with the identifier, and `OP<n>` makes it accept code n (rules R52, R89). That a line is a
list of the host's moves, that it leaves the other ports at `left`, and that the start is accepted two edges after
an IDLE machine comes to the line, are the model's host (logs 2 and 8). -/
def Obligations.ScriptLinesStartTheirOperation : Prop :=
  ∀ (s : State) (left : Inputs) (rest : List HostMove), s.ordinary → s.fsm = .idle → s.inputs.start = 0 →
    (∀ (i : Instr) (chars : List Byte), s.script = lineMoves left (.text i chars) ++ rest →
      ∃ t : State, Sys2Proof.core.run 2 s = .next t ∧ t.fsm = .busy ∧ decode t.captured.opQ = .ok i
        ∧ t.captured.lenQ.toNat = min chars.length 255
        ∧ ∀ (j : Fin 36) (h : j.val < chars.length), t.captured.textQ[j] = chars[j.val])
    ∧ (∀ (i : Instr) (id : Ident), s.script = lineMoves left (.ident i id) ++ rest →
      ∃ t : State, Sys2Proof.core.run 2 s = .next t ∧ t.fsm = .busy ∧ decode t.captured.opQ = .ok i
        ∧ t.captured.idQ = id)
    ∧ (∀ n : Nat, n < 8 → s.script = lineMoves left (.rawOp n) ++ rest →
      ∃ t : State, Sys2Proof.core.run 2 s = .next t ∧ t.fsm = .busy ∧ t.captured.opQ.toNat = n)

/-- A RESET line resets CORE from any state, whatever CORE does on the edge on which the host comes to the line:
two edges later CORE is IDLE with the reset values (rules R89, R180). The two edges and the line as a list of
moves are the model's host (logs 2 and 8). -/
def Obligations.ScriptResetLineResetsFromAnyState : Prop :=
  ∀ (s : State) (left : Inputs) (rest : List HostMove), s.script = lineMoves left .reset ++ rest →
    ∃ t : State, Sys2Proof.core.run 2 s = .next t ∧ t.fsm = .idle ∧ t.done = 0
      ∧ t.results = ⟨0, 0, 0, 0, Text.zero, Ident.zero⟩ ∧ t.sawReset = true

/-- An EXPECT line drives nothing, and where the result registers are specified its check compares the value with
the port's register (rule R89). That a buffer's value is the big-endian number of all its bytes is the model's
reading (log 15). -/
def Obligations.ExpectComparesThePortWithTheValue : Prop :=
  ∀ (s : State) (k v : Nat) (left : Inputs) (p : OutPort), resultsSpecified s = true →
    lineMoves left (.expect p v) = []
    ∧ (expectHolds k s .done v = true ↔ v = s.done.toNat)
    ∧ (expectHolds k s .err v = true ↔ v = s.results.err.toNat)
    ∧ (expectHolds k s .errClass v = true ↔ v = s.results.errClass.toNat)
    ∧ (expectHolds k s .kind v = true ↔ v = s.results.kind.toNat)
    ∧ (expectHolds k s .outLen v = true ↔ v = s.results.outLen.toNat)
    ∧ (expectHolds k s .outText v = true ↔ v = ∑ i : Fin 36, s.results.outText[i].toNat * 256 ^ (35 - i.val))
    ∧ (expectHolds k s .outId v = true ↔ v = identNumber s.results.outId)
    ∧ (expectHolds k s .status v = true ↔ v = (readStatus k s).toNat)
    ∧ (expectHolds k s .busy v = true ↔ v = 0)

/-- Rule R89: at a WAIT the host drives `START = 0` and `RST = 0` and stays there until it sees `DONE = 1` (the
model's own representation of the host, log 2). -/
def Obligations.WaitHoldsStartLowUntilDone : Prop :=
  ∀ (s : State) (rest : List HostMove), s.script = .wait :: rest →
    ∃ t, step s = .next t ∧ (t.done ≠ 1 → t.inputs.start = 0 ∧ t.inputs.rst = 0 ∧ t.script = .wait :: rest)
      ∧ (t.done = 1 → rest = [] → t.inputs.start = 0 ∧ t.script = [])

/-! ### Invariants -/

/-- The register invariant holds at reset. -/
def Obligations.ConsistentAtReset : Prop := State.reset.consistent

/-- Every step keeps the register invariant: `DONE = 0` while BUSY, legal result registers while IDLE, and the
reset values while IDLE with `DONE = 0` (rules R26, R38, R185). -/
def Obligations.EveryStepKeepsConsistency : Prop :=
  ∀ s t : State, s.consistent → step s = .next t → t.consistent

/-- The cycle-counter invariant holds at reset. -/
def Obligations.TimelyAtReset : Prop := State.reset.timely

/-- Every step keeps the cycle-counter invariant: while BUSY the completion is at least one edge away and never
further than `LATENCY` (rules R9, R32; log 3). -/
def Obligations.EveryStepKeepsTheCompletionBound : Prop :=
  ∀ s t : State, s.timely → step s = .next t → t.timely
end

