-- ==== Sys2Proof/Laws/State.lean ====
section
/-! SUPPORT. One lemma per field and per update of State: what the update leaves in the field. -/

namespace Sys2Proof.Machine

@[simp] theorem complete_inputs (r : Results) (s : State) : (complete r s).inputs = s.inputs := rfl
@[simp] theorem complete_fsm (r : Results) (s : State) : (complete r s).fsm = .idle := rfl
@[simp] theorem complete_done (r : Results) (s : State) : (complete r s).done = 1 := rfl
@[simp] theorem complete_results (r : Results) (s : State) : (complete r s).results = r := rfl
@[simp] theorem complete_captured (r : Results) (s : State) : (complete r s).captured = s.captured := rfl
@[simp] theorem complete_cyclesLeft (r : Results) (s : State) : (complete r s).cyclesLeft = s.cyclesLeft := rfl
@[simp] theorem complete_sawReset (r : Results) (s : State) : (complete r s).sawReset = s.sawReset := rfl
@[simp] theorem complete_draws (r : Results) (s : State) : (complete r s).draws = s.draws := rfl
@[simp] theorem complete_script (r : Results) (s : State) : (complete r s).script = s.script := rfl

@[simp] theorem raiseError_inputs (e : ErrClass) (k : BitVec 3) (s : State) : (raiseError e k s).inputs = s.inputs := rfl
@[simp] theorem raiseError_fsm (e : ErrClass) (k : BitVec 3) (s : State) : (raiseError e k s).fsm = .idle := rfl
@[simp] theorem raiseError_done (e : ErrClass) (k : BitVec 3) (s : State) : (raiseError e k s).done = 1 := rfl
@[simp] theorem raiseError_results (e : ErrClass) (k : BitVec 3) (s : State) : (raiseError e k s).results = failureResults e k := rfl
@[simp] theorem raiseError_captured (e : ErrClass) (k : BitVec 3) (s : State) : (raiseError e k s).captured = s.captured := rfl
@[simp] theorem raiseError_cyclesLeft (e : ErrClass) (k : BitVec 3) (s : State) : (raiseError e k s).cyclesLeft = s.cyclesLeft := rfl
@[simp] theorem raiseError_sawReset (e : ErrClass) (k : BitVec 3) (s : State) : (raiseError e k s).sawReset = s.sawReset := rfl
@[simp] theorem raiseError_draws (e : ErrClass) (k : BitVec 3) (s : State) : (raiseError e k s).draws = s.draws := rfl
@[simp] theorem raiseError_script (e : ErrClass) (k : BitVec 3) (s : State) : (raiseError e k s).script = s.script := rfl

@[simp] theorem scrambleResults_inputs (s : State) : (scrambleResults s).inputs = s.inputs := rfl
@[simp] theorem scrambleResults_fsm (s : State) : (scrambleResults s).fsm = s.fsm := rfl
@[simp] theorem scrambleResults_done (s : State) : (scrambleResults s).done = s.done := rfl
@[simp] theorem scrambleResults_results (s : State) : (scrambleResults s).results = Config.freeResults s.draws := rfl
@[simp] theorem scrambleResults_captured (s : State) : (scrambleResults s).captured = s.captured := rfl
@[simp] theorem scrambleResults_cyclesLeft (s : State) : (scrambleResults s).cyclesLeft = s.cyclesLeft := rfl
@[simp] theorem scrambleResults_sawReset (s : State) : (scrambleResults s).sawReset = s.sawReset := rfl
@[simp] theorem scrambleResults_draws (s : State) : (scrambleResults s).draws = s.draws + 1 := rfl
@[simp] theorem scrambleResults_script (s : State) : (scrambleResults s).script = s.script := rfl

@[simp] theorem acceptStart_inputs (s : State) : (acceptStart s).inputs = s.inputs := rfl
@[simp] theorem acceptStart_fsm (s : State) : (acceptStart s).fsm = .busy := rfl
@[simp] theorem acceptStart_done (s : State) : (acceptStart s).done = 0 := rfl
@[simp] theorem acceptStart_results (s : State) : (acceptStart s).results = Config.freeResults s.draws := rfl
@[simp] theorem acceptStart_captured (s : State) : (acceptStart s).captured = captureInputs s.inputs := rfl
@[simp] theorem acceptStart_cyclesLeft (s : State) : (acceptStart s).cyclesLeft = Config.latency (captureInputs s.inputs) := rfl
@[simp] theorem acceptStart_sawReset (s : State) : (acceptStart s).sawReset = s.sawReset := rfl
@[simp] theorem acceptStart_draws (s : State) : (acceptStart s).draws = s.draws + 1 := rfl
@[simp] theorem acceptStart_script (s : State) : (acceptStart s).script = s.script := rfl

@[simp] theorem busyEdge_inputs (s : State) : (busyEdge s).inputs = s.inputs := rfl
@[simp] theorem busyEdge_fsm (s : State) : (busyEdge s).fsm = s.fsm := rfl
@[simp] theorem busyEdge_done (s : State) : (busyEdge s).done = s.done := rfl
@[simp] theorem busyEdge_results (s : State) : (busyEdge s).results = Config.freeResults s.draws := rfl
@[simp] theorem busyEdge_captured (s : State) : (busyEdge s).captured = s.captured := rfl
@[simp] theorem busyEdge_cyclesLeft (s : State) : (busyEdge s).cyclesLeft = s.cyclesLeft - 1 := rfl
@[simp] theorem busyEdge_sawReset (s : State) : (busyEdge s).sawReset = s.sawReset := rfl
@[simp] theorem busyEdge_draws (s : State) : (busyEdge s).draws = s.draws + 1 := rfl
@[simp] theorem busyEdge_script (s : State) : (busyEdge s).script = s.script := rfl

@[simp] theorem resetEdge_inputs (s : State) : (resetEdge s).inputs = s.inputs := rfl
@[simp] theorem resetEdge_fsm (s : State) : (resetEdge s).fsm = .idle := rfl
@[simp] theorem resetEdge_done (s : State) : (resetEdge s).done = 0 := rfl
@[simp] theorem resetEdge_results (s : State) : (resetEdge s).results = resetResults := rfl
@[simp] theorem resetEdge_captured (s : State) : (resetEdge s).captured = Config.freeCaptured s.draws := rfl
@[simp] theorem resetEdge_cyclesLeft (s : State) : (resetEdge s).cyclesLeft = Config.freeCycles s.draws := rfl
@[simp] theorem resetEdge_sawReset (s : State) : (resetEdge s).sawReset = true := rfl
@[simp] theorem resetEdge_draws (s : State) : (resetEdge s).draws = s.draws + 1 := rfl
@[simp] theorem resetEdge_script (s : State) : (resetEdge s).script = s.script := rfl

@[simp] theorem unspecifyAll_inputs (s : State) : (unspecifyAll s).inputs = s.inputs := rfl
@[simp] theorem unspecifyAll_fsm (s : State) : (unspecifyAll s).fsm = Config.freeFsm s.draws := rfl
@[simp] theorem unspecifyAll_done (s : State) : (unspecifyAll s).done = Config.freeDone s.draws := rfl
@[simp] theorem unspecifyAll_results (s : State) : (unspecifyAll s).results = Config.freeResults s.draws := rfl
@[simp] theorem unspecifyAll_captured (s : State) : (unspecifyAll s).captured = Config.freeCaptured s.draws := rfl
@[simp] theorem unspecifyAll_cyclesLeft (s : State) : (unspecifyAll s).cyclesLeft = Config.freeCycles s.draws := rfl
@[simp] theorem unspecifyAll_sawReset (s : State) : (unspecifyAll s).sawReset = s.sawReset := rfl
@[simp] theorem unspecifyAll_draws (s : State) : (unspecifyAll s).draws = s.draws + 1 := rfl
@[simp] theorem unspecifyAll_script (s : State) : (unspecifyAll s).script = s.script := rfl

@[simp] theorem hostMove_inputs (s : State) : (hostMove s).inputs = (hostPorts s.done s.inputs s.script).1 := rfl
@[simp] theorem hostMove_fsm (s : State) : (hostMove s).fsm = s.fsm := rfl
@[simp] theorem hostMove_done (s : State) : (hostMove s).done = s.done := rfl
@[simp] theorem hostMove_results (s : State) : (hostMove s).results = s.results := rfl
@[simp] theorem hostMove_captured (s : State) : (hostMove s).captured = s.captured := rfl
@[simp] theorem hostMove_cyclesLeft (s : State) : (hostMove s).cyclesLeft = s.cyclesLeft := rfl
@[simp] theorem hostMove_sawReset (s : State) : (hostMove s).sawReset = s.sawReset := rfl
@[simp] theorem hostMove_draws (s : State) : (hostMove s).draws = s.draws := rfl
@[simp] theorem hostMove_script (s : State) : (hostMove s).script = (hostPorts s.done s.inputs s.script).2 := rfl

@[simp] theorem stageOperation_inputs (op : BitVec 3) (s : State) : (stageOperation op s).inputs = withoutRequest s.inputs := rfl
@[simp] theorem stageOperation_fsm (op : BitVec 3) (s : State) : (stageOperation op s).fsm = .busy := rfl
@[simp] theorem stageOperation_done (op : BitVec 3) (s : State) : (stageOperation op s).done = 0 := rfl
@[simp] theorem stageOperation_results (op : BitVec 3) (s : State) : (stageOperation op s).results = s.results := rfl
@[simp] theorem stageOperation_captured (op : BitVec 3) (s : State) : (stageOperation op s).captured = ⟨op, s.captured.lenQ, s.captured.textQ, s.captured.idQ⟩ := rfl
@[simp] theorem stageOperation_cyclesLeft (op : BitVec 3) (s : State) : (stageOperation op s).cyclesLeft = 1 := rfl
@[simp] theorem stageOperation_sawReset (op : BitVec 3) (s : State) : (stageOperation op s).sawReset = true := rfl
@[simp] theorem stageOperation_draws (op : BitVec 3) (s : State) : (stageOperation op s).draws = s.draws := rfl
@[simp] theorem stageOperation_script (op : BitVec 3) (s : State) : (stageOperation op s).script = s.script := rfl

@[simp] theorem outcomeState_inputs (s : State) (r : Results) : (outcomeState s r).inputs = s.inputs := rfl
@[simp] theorem outcomeState_fsm (s : State) (r : Results) : (outcomeState s r).fsm = .idle := rfl
@[simp] theorem outcomeState_done (s : State) (r : Results) : (outcomeState s r).done = 1 := rfl
@[simp] theorem outcomeState_results (s : State) (r : Results) : (outcomeState s r).results = r := rfl
@[simp] theorem outcomeState_captured (s : State) (r : Results) : (outcomeState s r).captured = s.captured := rfl
@[simp] theorem outcomeState_cyclesLeft (s : State) (r : Results) : (outcomeState s r).cyclesLeft = s.cyclesLeft := rfl
@[simp] theorem outcomeState_sawReset (s : State) (r : Results) : (outcomeState s r).sawReset = s.sawReset := rfl
@[simp] theorem outcomeState_draws (s : State) (r : Results) : (outcomeState s r).draws = s.draws := rfl
@[simp] theorem outcomeState_script (s : State) (r : Results) : (outcomeState s r).script = s.script := rfl

@[simp] theorem captureInputs_opQ (p : Inputs) : (captureInputs p).opQ = p.op := rfl
@[simp] theorem captureInputs_lenQ (p : Inputs) : (captureInputs p).lenQ = p.inLen := rfl
@[simp] theorem captureInputs_textQ (p : Inputs) : (captureInputs p).textQ = p.inText := rfl
@[simp] theorem captureInputs_idQ (p : Inputs) : (captureInputs p).idQ = p.inId := rfl
@[simp] theorem withoutRequest_rst (p : Inputs) : (withoutRequest p).rst = 0 := rfl
@[simp] theorem withoutRequest_start (p : Inputs) : (withoutRequest p).start = 0 := rfl

end Sys2Proof.Machine
end

