-- ==== Sys2Proof/Laws/Ops.lean ====
section
/-! SUPPORT. What the shared operations, a clock edge, a step and the host's move can do, said once. -/

namespace Sys2Proof.Machine

/-- A completion that writes `r` gives `outcomeState`. -/
theorem complete_eq (r : Results) (s : State) : complete r s = outcomeState s r := rfl

/-- Raising an error class completes with the failure outputs of rule R163. -/
theorem raiseError_eq (e : ErrClass) (k : BitVec 3) (s : State) :
    raiseError e k s = outcomeState s (emptyOutputs e.code k) := rfl

/-- An operation that returns completes with what it returns. -/
@[simp] theorem finish_ok (k : BitVec 3) (r : Results) (s : State) : finish k (.ok r) s = outcomeState s r := rfl

/-- An operation that raises completes with the failure outputs. -/
@[simp] theorem finish_error (k : BitVec 3) (e : ErrClass) (s : State) :
    finish k (.error e) s = outcomeState s (emptyOutputs e.code k) := rfl

/-- A completion, returned or raised, is an outcome of the state. -/
theorem finish_cases (k : BitVec 3) (r : Except ErrClass Results) (s : State) :
    (∃ res, r = .ok res ∧ finish k r s = outcomeState s res)
      ∨ ∃ e, r = .error e ∧ finish k r s = outcomeState s (emptyOutputs e.code k) := by
  cases r with
  | ok res => exact .inl ⟨res, rfl, rfl⟩
  | error e => exact .inr ⟨e, rfl, rfl⟩

/-- The results of an operation as a function of the captured registers (rules R7, R32). -/
def resultsOf (i : Instr) (c : Captured) : Results :=
  match i with
  | .convert =>
    (finish (classifyFn c.lenQ c.textQ).code (convertOp c.lenQ c.textQ) State.reset).results
  | .classify =>
    (finish (classifyFn c.lenQ c.textQ).code (classifyOp c.lenQ c.textQ) State.reset).results
  | .ulidDecode => (finish kindNone (ulidDecodeOp c.lenQ c.textQ) State.reset).results
  | .ulidEncode => successResults kindNone 26 (padText (ulidEncodeFn (identValue c.idQ))) c.idQ
  | .uuidDecode => (finish kindNone (uuidDecodeOp c.lenQ c.textQ) State.reset).results
  | .uuidEncode => successResults kindNone 36 (uuidEncodeFn c.idQ) c.idQ

/-- The results of a completion do not depend on the state it happens in. -/
theorem finish_eq_outcomeState (k : BitVec 3) (r : Except ErrClass Results) (s s' : State) :
    finish k r s = outcomeState s (finish k r s').results := by
  cases r <;> rfl

/-- `exec` of every operation on every state is one completion with that operation's results. -/
theorem exec_eq (i : Instr) (s : State) : exec i s = .next (outcomeState s (resultsOf i s.captured)) := by
  cases i
  case ulidEncode => rfl
  case uuidEncode => rfl
  all_goals exact congrArg _ (finish_eq_outcomeState _ _ s State.reset)

/-- A reserved code completes with ILLEGAL_OP (rule R150). -/
theorem execReserved_eq (s : State) : execReserved s = .next (outcomeState s (emptyOutputs 4 0)) := rfl

/-- What a completion edge does: the selected operation's outcome, or the reserved one. -/
theorem completionEdge_cases (s : State) :
    (∃ i, decode s.captured.opQ = .ok i
        ∧ completionEdge s = .next (outcomeState s (resultsOf i s.captured)))
      ∨ ∃ e, decode s.captured.opQ = .error e
        ∧ completionEdge s = .next (outcomeState s (emptyOutputs 4 0)) := by
  unfold completionEdge selectedOp
  cases h : decode s.captured.opQ with
  | ok i => exact .inl ⟨i, rfl, exec_eq i s⟩
  | error e => exact .inr ⟨e, rfl, rfl⟩

/-- An edge with `RST = 1`. -/
theorem coreEdge_reset {s : State} (h : s.inputs.rst = 1) : coreEdge s = .next (resetEdge s) := by
  simp [coreEdge, h]

/-- An edge before the first reset. -/
theorem coreEdge_unreset {s : State} (h : s.inputs.rst ≠ 1) (h' : s.sawReset = false) :
    coreEdge s = .next (unspecifyAll s) := by
  rw [coreEdge, if_neg h, if_pos h']

/-- `RST` is one bit. -/
theorem rst_ne_one {p : Inputs} (h : p.rst = 0) : p.rst ≠ 1 := by
  rw [h]; decide

/-- An accepted start. -/
theorem coreEdge_accepting {s : State} (h : s.accepting) : coreEdge s = .next (acceptStart s) := by
  obtain ⟨⟨hs, hr⟩, hf, hst⟩ := h
  simp [coreEdge, hr, hs, hf, hst]

/-- An idle edge without a request. -/
theorem coreEdge_idle {s : State} (h : s.ordinary) (hf : s.fsm = .idle) (hst : s.inputs.start ≠ 1) :
    coreEdge s = .next s := by
  obtain ⟨hs, hr⟩ := h
  have hn : s.inputs.rst ≠ 1 := rst_ne_one hr
  rw [coreEdge, if_neg hn, if_neg (by simp [hs]), hf]
  exact if_neg hst

/-- A busy edge on which no completion is due. -/
theorem coreEdge_busy {s : State} (h : s.ordinary) (hf : s.fsm = .busy) (hc : 1 < s.cyclesLeft) :
    coreEdge s = .next (busyEdge s) := by
  obtain ⟨hs, hr⟩ := h
  have : ¬ s.cyclesLeft ≤ 1 := by omega
  simp [coreEdge, hr, hs, hf, completionDue, this]

/-- A completion edge. -/
theorem coreEdge_completing {s : State} (h : s.completing) : coreEdge s = completionEdge s := by
  obtain ⟨⟨hs, hr⟩, hf, hc⟩ := h
  simp [coreEdge, hr, hs, hf, completionDue, hc]

/-- Everything a clock edge can do, with the condition of each case (rules R24, R167). -/
theorem coreEdge_cases (s : State) :
    (s.inputs.rst = 1 ∧ coreEdge s = .next (resetEdge s))
      ∨ (s.inputs.rst ≠ 1 ∧ s.sawReset = false ∧ coreEdge s = .next (unspecifyAll s))
      ∨ (s.accepting ∧ coreEdge s = .next (acceptStart s))
      ∨ (s.ordinary ∧ s.fsm = .idle ∧ s.inputs.start ≠ 1 ∧ coreEdge s = .next s)
      ∨ (s.ordinary ∧ s.fsm = .busy ∧ 1 < s.cyclesLeft ∧ coreEdge s = .next (busyEdge s))
      ∨ (s.completing ∧ coreEdge s = completionEdge s) := by
  by_cases hr : s.inputs.rst = 1
  · exact .inl ⟨hr, coreEdge_reset hr⟩
  have hr0 : s.inputs.rst = 0 := by
    have := s.inputs.rst.isLt
    apply BitVec.eq_of_toNat_eq
    have h1 : s.inputs.rst.toNat ≠ 1 := fun h => hr (BitVec.eq_of_toNat_eq h)
    simp; omega
  cases hs : s.sawReset with
  | false => exact .inr (.inl ⟨hr, rfl, coreEdge_unreset hr hs⟩)
  | true =>
    cases hf : s.fsm with
    | idle =>
      by_cases hst : s.inputs.start = 1
      · exact .inr (.inr (.inl ⟨⟨⟨hs, hr0⟩, hf, hst⟩, coreEdge_accepting ⟨⟨hs, hr0⟩, hf, hst⟩⟩))
      · exact .inr (.inr (.inr (.inl ⟨⟨hs, hr0⟩, rfl, hst, coreEdge_idle ⟨hs, hr0⟩ hf hst⟩)))
    | busy =>
      by_cases hc : s.cyclesLeft ≤ 1
      · exact .inr (.inr (.inr (.inr (.inr
          ⟨⟨⟨hs, hr0⟩, hf, hc⟩, coreEdge_completing ⟨⟨hs, hr0⟩, hf, hc⟩⟩))))
      · exact .inr (.inr (.inr (.inr (.inl
          ⟨⟨hs, hr0⟩, rfl, by omega, coreEdge_busy ⟨hs, hr0⟩ hf (by omega)⟩))))

/-- A step is CORE's edge and then the host's move. -/
theorem step_of_coreEdge {s t : State} (h : coreEdge s = .next t) : step s = .next (hostMove t) := by
  simp [step, edgeThenHost, h]

/-- The converse: a step that gives a next state gives the host's move after CORE's edge. -/
theorem coreEdge_of_step {s u : State} (h : step s = .next u) :
    ∃ t, coreEdge s = .next t ∧ u = hostMove t := by
  unfold step edgeThenHost at h
  cases hc : coreEdge s with
  | next t => rw [hc] at h; exact ⟨t, rfl, (Host.Outcome.next.inj h).symm⟩
  | fault r => rw [hc] at h; cases h
  | refused r => rw [hc] at h; cases h

/-- The host's script is not CORE's: an edge leaves it as it is. -/
theorem coreEdge_script {s t : State} (h : coreEdge s = .next t) : t.script = s.script := by
  rcases coreEdge_cases s with ⟨-, e⟩ | ⟨-, -, e⟩ | ⟨-, e⟩ | ⟨-, -, -, e⟩ | ⟨-, -, -, e⟩ | ⟨-, e⟩
  iterate 5 rw [e] at h; cases h; rfl
  rcases completionEdge_cases s with ⟨_, -, e'⟩ | ⟨_, -, e'⟩ <;>
    · rw [e, e'] at h; cases h; rfl

/-- With no move left the ports keep their values. -/
@[simp] theorem hostPorts_nil (d : BitVec 1) (p : Inputs) : hostPorts d p [] = (p, []) := rfl

/-- A drive puts its values on the ports. -/
@[simp] theorem hostPorts_drive (d : BitVec 1) (p q : Inputs) (ms : List HostMove) :
    hostPorts d p (.drive q :: ms) = (q, ms) := rfl

/-- Where the result registers are specified a read shows them (rule R38). -/
theorem readResults_specified {s : State} (h : resultsSpecified s = true) (k : Nat) : readResults k s = s.results :=
  if_pos h

/-- The result registers are specified after the first reset while IDLE (rules R38, R182). -/
theorem resultsSpecified_iff (s : State) : resultsSpecified s = true ↔ s.sawReset = true ∧ s.fsm = .idle := by
  simp [resultsSpecified]

/-- What the host can do: keep or replace the ports by the ports of a move still to come, or by the present
ports without a request; its script only gets shorter. -/
theorem hostPorts_mem (done : BitVec 1) (p : Inputs) (ms : List HostMove) :
    ((hostPorts done p ms).1 = p ∨ (hostPorts done p ms).1 = withoutRequest p
        ∨ HostMove.drive (hostPorts done p ms).1 ∈ ms)
      ∧ ∀ m ∈ (hostPorts done p ms).2, m ∈ ms := by
  induction ms generalizing p with
  | nil => simp [hostPorts]
  | cons m rest ih =>
    cases m with
    | drive q => simp only [hostPorts]; exact ⟨.inr (.inr (by simp)), fun m hm => by simp [hm]⟩
    | wait =>
      simp only [hostPorts]
      split
      · obtain ⟨h1, h2⟩ := ih (withoutRequest p)
        refine ⟨?_, fun m hm => List.mem_cons_of_mem _ (h2 m hm)⟩
        rcases h1 with h | h | h
        · exact .inr (.inl h)
        · exact .inr (.inl h)
        · exact .inr (.inr (List.mem_cons_of_mem _ h))
      · exact ⟨.inr (.inl rfl), fun m hm => hm⟩

/-- The moves left do not depend on what is on the ports. -/
theorem hostPorts_script (done : BitVec 1) (p q : Inputs) (ms : List HostMove) :
    (hostPorts done p ms).2 = (hostPorts done q ms).2 := by
  induction ms generalizing p q with
  | nil => rfl
  | cons m rest ih =>
    cases m with
    | drive _ => rfl
    | wait =>
      simp only [hostPorts]
      split
      · exact ih _ _
      · rfl

/-- A host that drives no reset keeps to it. -/
theorem noResetAhead_hostMove {t : State} (h : t.noResetAhead) : (hostMove t).noResetAhead := by
  obtain ⟨h1, h2⟩ := hostPorts_mem t.done t.inputs t.script
  refine ⟨?_, fun p hp => h.2 p (h2 _ hp)⟩
  show (hostPorts t.done t.inputs t.script).1.rst = 0
  rcases h1 with e | e | e
  · rw [e]; exact h.1
  · rw [e]; rfl
  · exact h.2 _ e

/-- `LATENCY` is at least 1 (rule R9). -/
theorem one_le_latency (c : Captured) : 1 ≤ Config.latency c := by simp [Config.latency]

/-- `LATENCY` is at most `MAX_LATENCY` (rule R9). -/
theorem latency_le_maxLatency (c : Captured) : Config.latency c ≤ Config.maxLatency := by
  have : Config.latencyDraw c % Config.maxLatency < Config.maxLatency :=
    Nat.mod_lt _ (Nat.succ_pos _)
  simp only [Config.latency]; omega

/-- `k + 1` steps are one step and then `k`. -/
theorem run_succ (k : Nat) {s t : State} (h : step s = .next t) :
    Sys2Proof.core.run (k + 1) s = Sys2Proof.core.run k t := by
  have h' : Sys2Proof.core.step s = .next t := h
  simp only [Host.Core.run, h']

end Sys2Proof.Machine
end

