-- ==== Sys2Proof/Laws/Operands.lean ====
section
/-! SUPPORT. The character tables, the big-endian numbers and the buffers: one law each. -/

namespace Sys2Proof.Machine

/-! ### Big-endian numbers -/

/-- The big-endian fold over a finite sequence is the positional sum. -/
theorem foldl_ofFn_eq_sum (b : Nat) {n : Nat} (v : Fin n → Nat) :
    (List.ofFn v).foldl (fun w x => w * b + x) 0 = ∑ i : Fin n, v i * b ^ (n - 1 - i.val) := by
  induction n with
  | zero => simp
  | succ n ih =>
    rw [List.ofFn_succ', List.concat_eq_append, List.foldl_append, ih, Fin.sum_univ_castSucc]
    simp only [List.foldl_cons, List.foldl_nil, Finset.sum_mul, Fin.val_castSucc, Fin.val_last]
    congr 1
    · refine Finset.sum_congr rfl fun i _ => ?_
      rw [mul_assoc, ← pow_succ]
      congr 2
      have := i.isLt
      omega
    · simp

/-- The positional sum of digits below the base is below the base's power. -/
theorem sum_lt_pow (b : Nat) {n : Nat} (v : Fin n → Nat) (h : ∀ i, v i < b) :
    ∑ i : Fin n, v i * b ^ (n - 1 - i.val) < b ^ n := by
  rw [← foldl_ofFn_eq_sum]
  induction n with
  | zero => simp
  | succ n ih =>
    rw [List.ofFn_succ', List.concat_eq_append, List.foldl_append]
    simp only [List.foldl_cons, List.foldl_nil]
    have h1 := ih (fun i => v i.castSucc) fun i => h _
    have h2 := h (Fin.last n)
    calc _ < (List.foldl (fun w x => w * b + x) 0 (List.ofFn fun i => v i.castSucc)) * b + b := by omega
      _ = (List.foldl (fun w x => w * b + x) 0 (List.ofFn fun i => v i.castSucc) + 1) * b := by ring
      _ ≤ b ^ n * b := Nat.mul_le_mul_right _ h1
      _ = b ^ (n + 1) := (pow_succ b n).symm

/-- A digit read back from a positional sum. -/
theorem sum_div_pow_mod (b : Nat) {n : Nat} (v : Fin n → Nat) (h : ∀ i, v i < b) (i : Fin n) :
    (∑ i : Fin n, v i * b ^ (n - 1 - i.val)) / b ^ (n - 1 - i.val) % b = v i := by
  rw [← foldl_ofFn_eq_sum]
  induction n with
  | zero => exact i.elim0
  | succ n ih =>
    rw [List.ofFn_succ', List.concat_eq_append, List.foldl_append]
    simp only [List.foldl_cons, List.foldl_nil]
    have hb : 0 < b := by have := h (Fin.last n); omega
    induction i using Fin.lastCases with
    | last =>
      simp only [Fin.val_last, Nat.add_sub_cancel, Nat.sub_self, pow_zero, Nat.div_one]
      rw [mul_comm, Nat.mul_add_mod, Nat.mod_eq_of_lt (h _)]
    | cast i =>
      have e : n + 1 - 1 - i.castSucc.val = (n - 1 - i.val) + 1 := by
        have := i.isLt
        simp only [Fin.val_castSucc]; omega
      rw [e, pow_succ', ← Nat.div_div_eq_div_mul, mul_comm, Nat.mul_add_div hb,
        Nat.div_eq_of_lt (h _), Nat.add_zero]
      exact ih (fun i => v i.castSucc) (fun i => h _) i

/-- A number below the base's power is the positional sum of its digits. -/
theorem sum_digits (b n x : Nat) (hx : x < b ^ n) :
    ∑ i : Fin n, x / b ^ (n - 1 - i.val) % b * b ^ (n - 1 - i.val) = x := by
  induction n generalizing x with
  | zero => simpa [eq_comm] using hx
  | succ n ih =>
    rw [Fin.sum_univ_castSucc]
    have e : ∀ i : Fin n, x / b ^ (n + 1 - 1 - i.castSucc.val) % b * b ^ (n + 1 - 1 - i.castSucc.val)
        = x / b / b ^ (n - 1 - i.val) % b * b ^ (n - 1 - i.val) * b := by
      intro i
      have : n + 1 - 1 - i.castSucc.val = (n - 1 - i.val) + 1 := by
        have := i.isLt
        simp only [Fin.val_castSucc]; omega
      rw [this, pow_succ', ← Nat.div_div_eq_div_mul]; ring
    rw [Finset.sum_congr rfl fun i _ => e i, ← Finset.sum_mul, ih (x / b)]
    · simp only [Fin.val_last, Nat.add_sub_cancel, Nat.sub_self, pow_zero, Nat.div_one, mul_one]
      exact Nat.div_add_mod' x b
    · rw [pow_succ] at hx
      exact Nat.div_lt_of_lt_mul (by rwa [mul_comm] at hx)

/-! ### Character tables -/

/-- Every character has a value exactly when the values, in order, are those of the characters. -/
theorem charValues_eq_some_iff {α : Type} (f : Byte → Option α) (cs : List Byte) (vs : List α) :
    charValues f cs = some vs ↔ cs.map f = vs.map some := by
  induction cs generalizing vs with
  | nil => cases vs <;> simp [charValues]
  | cons c cs ih =>
    cases vs with
    | nil => simp only [charValues]; split <;> simp
    | cons v vs =>
      simp only [charValues, List.map_cons, List.cons.injEq, ← ih]
      cases f c <;> cases charValues f cs <;> simp

/-- The loop finds no value list exactly when some character has no value. -/
theorem charValues_eq_none_iff {α : Type} (f : Byte → Option α) (cs : List Byte) :
    charValues f cs = none ↔ ∃ c ∈ cs, f c = none := by
  induction cs with
  | nil => simp [charValues]
  | cons c cs ih =>
    simp only [charValues, List.mem_cons, exists_eq_or_imp, ← ih]
    cases f c <;> cases charValues f cs <;> simp

/-- The loop on a finite sequence of characters with known values. -/
theorem charValues_ofFn {α : Type} (f : Byte → Option α) {n : Nat} (g : Fin n → Byte) (v : Fin n → α)
    (h : ∀ i, f (g i) = some (v i)) : charValues f (List.ofFn g) = some (List.ofFn v) := by
  rw [charValues_eq_some_iff, List.map_ofFn, List.map_ofFn]
  exact congrArg _ (funext h)

/-- All characters have a value exactly when the loop finds the values. -/
theorem allInTable_iff {α : Type} (f : Byte → Option α) (cs : List Byte) :
    allInTable f cs = true ↔ ∀ c ∈ cs, f c ≠ none := by
  simp [allInTable, List.all_eq_true, Option.isSome_iff_ne_none]

/-! ### Buffers -/

/-- The bytes of a slice inside the buffer. -/
theorem slice_eq_ofFn (t : Text) (a n : Nat) (h : a + n ≤ 36) :
    slice t a n = List.ofFn fun i : Fin n => t[a + i.val]'(by have := i.isLt; omega) := by
  apply List.ext_getElem
  · simp [slice]; omega
  · intro i h1 h2
    simp [slice]

/-- The bytes of an identifier. -/
theorem toList_eq_ofFn {n : Nat} (v : Vector Byte n) : v.toList = List.ofFn fun i : Fin n => v[i] := by
  apply List.ext_getElem
  · simp
  · intro i h1 h2
    simp

/-- `MemRead` of a whole buffer is the positional sum of its bytes. -/
theorem memRead_vector {n : Nat} (v : Vector Byte n) :
    memRead v.toList 0 n = ∑ i : Fin n, v[i].toNat * 256 ^ (n - 1 - i.val) := by
  have e : List.take n (List.drop 0 v.toList) = List.ofFn fun i : Fin n => v[i] := by
    rw [List.drop_zero, List.take_of_length_le (by simp), toList_eq_ofFn]
  rw [memRead, e, ← foldl_ofFn_eq_sum, ← List.foldl_map (f := fun b : Byte => b.toNat), List.map_ofFn]
  rfl

/-- `MemRead(ID, 0, 16)` is the big-endian number of rule R54. -/
theorem memRead_ident (id : Ident) : memRead id.toList 0 16 = identNumber id := memRead_vector id

/-- An identifier's number is below 2^128. -/
theorem identNumber_lt (id : Ident) : identNumber id < 2 ^ 128 :=
  sum_lt_pow 256 (fun i : Fin 16 => id[i].toNat) fun i => id[i].isLt

/-- `V` is the identifier's number. -/
theorem identValue_toNat (id : Ident) : (identValue id).toNat = identNumber id := by
  rw [identValue, memRead_ident, BitVec.toNat_ofNat, Nat.mod_eq_of_lt (identNumber_lt id)]

/-- Byte j of the identifier of a value. -/
theorem identOfValue_getElem (v : BitVec 128) (j : Fin 16) :
    (identOfValue v)[j].toNat = v.toNat / 256 ^ (15 - j.val) % 256 := by
  have : 2 ^ (120 - 8 * j.val) = 256 ^ (15 - j.val) := by
    rw [show 120 - 8 * j.val = 8 * (15 - j.val) by have := j.isLt; omega, pow_mul]; rfl
  simp [identOfValue, Nat.shiftRight_eq_div_pow, this]

/-- The number of the identifier of a value is the value. -/
theorem identNumber_identOfValue (v : BitVec 128) : identNumber (identOfValue v) = v.toNat := by
  rw [identNumber, Finset.sum_congr rfl fun j _ => by rw [identOfValue_getElem]]
  exact sum_digits 256 16 v.toNat v.isLt

/-- Two identifiers with the same number are the same. -/
theorem identNumber_injective {a b : Ident} (h : identNumber a = identNumber b) : a = b := by
  apply Vector.ext
  intro j hj
  have e : ∀ id : Ident, identNumber id / 256 ^ (15 - j) % 256 = id[j].toNat := fun id =>
    sum_div_pow_mod 256 (fun i : Fin 16 => id[i].toNat) (fun i => id[i].isLt) ⟨j, hj⟩
  exact BitVec.eq_of_toNat_eq (by rw [← e a, ← e b, h])

/-- The identifier of an identifier's value is the identifier. -/
theorem identOfValue_identValue (id : Ident) : identOfValue (identValue id) = id :=
  identNumber_injective (by rw [identNumber_identOfValue, identValue_toNat])

/-- `W` of a symbol sequence is the positional sum of rule R85. -/
theorem ulidNumber_ofFn (v : Fin 26 → BitVec 5) : ulidNumber (List.ofFn v) = symbolNumber v := by
  have := foldl_ofFn_eq_sum 32 fun i : Fin 26 => (v i).toNat
  rw [ulidNumber, symbolNumber, ← this, ← List.foldl_map (f := fun b : BitVec 5 => b.toNat), List.map_ofFn]
  rfl

/-- Symbol i read back from the number the symbols spell (rule R76). -/
theorem symbolNumber_digit (v : Fin 26 → BitVec 5) (i : Fin 26) :
    BitVec.ofNat 5 (symbolNumber v / 32 ^ (25 - i.val)) = v i := by
  apply BitVec.eq_of_toNat_eq
  rw [BitVec.toNat_ofNat, symbolNumber]
  exact sum_div_pow_mod 32 (fun i : Fin 26 => (v i).toNat) (fun i => (v i).isLt) i

/-- `W ≥ 2^128` exactly when the first symbol is 8 or more (rule R102). -/
theorem symbolNumber_ge_iff (v : Fin 26 → BitVec 5) : 2 ^ 128 ≤ symbolNumber v ↔ 8 ≤ (v 0).toNat := by
  have h := sum_div_pow_mod 32 (fun i : Fin 26 => (v i).toNat) (fun i => (v i).isLt) 0
  have hl := sum_lt_pow 32 (fun i : Fin 26 => (v i).toNat) fun i => (v i).isLt
  change symbolNumber v / 32 ^ 25 % 32 = (v 0).toNat at h
  change symbolNumber v < 32 ^ 26 at hl
  omega

end Sys2Proof.Machine
end

