-- ==== Sys2Proof/Laws/Codecs.lean ====
section
/-! SUPPORT. What each codec function and the classifier answer, said once: one law per outcome. -/

namespace Sys2Proof.Machine

/-! ### Characters -/

/-- Reading a letter of the alphabet gives its position (rule R82). -/
theorem sym_alpha (v : BitVec 5) : sym (alpha v) = some v := by
  revert v; decide

/-- A byte with a value is the alphabet's letter in one case or the other (rules R81, R82). -/
theorem upperCase_eq_alpha_of_sym {c : Byte} {v : BitVec 5} (h : sym c = some v) : upperCase c = alpha v := by
  revert c v
  have key : ∀ c : Byte, ∀ v, sym c = some v → upperCase c = alpha v := by
    intro c
    have : ∀ c : Byte, (match sym c with | some v => decide (upperCase c = alpha v) | none => true) = true := by
      decide
    intro v h
    have := this c
    rw [h] at this
    exact of_decide_eq_true this
  exact fun {c v} => key c v

/-- Reading a hex digit of the table gives its value (rule R84). -/
theorem hexval_hexl (v : BitVec 4) : hexval (hexl v) = some v := by
  revert v; decide

/-- A hex digit is the table's digit in one case or the other (rules R83, R84). -/
theorem lowerCase_eq_hexl_of_hexval {c : Byte} {v : BitVec 4} (h : hexval c = some v) : lowerCase c = hexl v := by
  have : ∀ c : Byte, (match hexval c with | some v => decide (lowerCase c = hexl v) | none => true) = true := by
    decide
  have := this c
  rw [h] at this
  exact of_decide_eq_true this

/-! ### Codec-ULID -/

/-- A length other than 26 (rule R104). -/
theorem ulidDecodeFn_length {n : BitVec 8} (t : Text) (h : n ≠ 26) : ulidDecodeFn n t = .error .shape := by
  rw [ulidDecodeFn, if_pos h]

/-- A character outside the alphabet. -/
theorem ulidDecodeFn_charset {n : BitVec 8} {t : Text} (hn : n = 26) (h : ∃ i : Fin 26, sym t[i.val] = none) :
    ulidDecodeFn n t = .error .shape := by
  have : charValues sym (slice t 0 26) = none := by
    rw [charValues_eq_none_iff, slice_eq_ofFn t 0 26 (by omega)]
    obtain ⟨i, hi⟩ := h
    exact ⟨_, List.mem_ofFn.2 ⟨i, rfl⟩, by simpa using hi⟩
  rw [ulidDecodeFn, if_neg (not_not.2 hn), this]

/-- The symbols of a text that spells them. -/
theorem charValues_of_spellsSymbols {t : Text} {v : Fin 26 → BitVec 5} (h : spellsSymbols t v) :
    charValues sym (slice t 0 26) = some (List.ofFn v) := by
  rw [slice_eq_ofFn t 0 26 (by omega)]
  exact charValues_ofFn _ _ _ fun i => by simpa using h i

/-- Every symbol known and the first 8 or more. -/
theorem ulidDecodeFn_range {n : BitVec 8} {t : Text} {v : Fin 26 → BitVec 5} (hn : n = 26) (h : spellsSymbols t v)
    (h8 : 8 ≤ (v 0).toNat) : ulidDecodeFn n t = .error .range := by
  simp only [ulidDecodeFn, charValues_of_spellsSymbols h, ulidNumber_ofFn]
  rw [if_neg (not_not.2 hn), if_pos ((symbolNumber_ge_iff v).2 h8)]

/-- Every symbol known and the first below 8: the identifier they spell. -/
theorem ulidDecodeFn_ok {n : BitVec 8} {t : Text} {v : Fin 26 → BitVec 5} (hn : n = 26) (h : spellsSymbols t v)
    (h8 : (v 0).toNat < 8) : ∃ id, ulidDecodeFn n t = .ok id ∧ identNumber id = symbolNumber v := by
  have hlt : ¬ 2 ^ 128 ≤ symbolNumber v := by rw [symbolNumber_ge_iff]; omega
  refine ⟨identOfValue (BitVec.ofNat 128 (symbolNumber v)), ?_, ?_⟩
  · simp only [ulidDecodeFn, charValues_of_spellsSymbols h, ulidNumber_ofFn]
    rw [if_neg (not_not.2 hn), if_neg hlt]
  · rw [identNumber_identOfValue, BitVec.toNat_ofNat, Nat.mod_eq_of_lt (by omega)]

/-- The symbols are known, or one of the first 26 characters is outside the alphabet. -/
theorem spellsSymbols_or (t : Text) :
    (∃ v, spellsSymbols t v) ∨ ∃ i : Fin 26, sym t[i.val] = none := by
  by_cases h : ∃ i : Fin 26, sym t[i.val] = none
  · exact .inr h
  · left
    have h' : ∀ i : Fin 26, ∃ v, sym t[i.val] = some v := fun i =>
      Option.ne_none_iff_exists'.1 fun e => h ⟨i, e⟩
    choose v hv using h'
    exact ⟨v, hv⟩

/-- Character i of the ULID form (rule R101), below its padding. -/
theorem ulidEncodeFn_getElem (v : BitVec 128) (i : Fin 26) :
    (ulidEncodeFn v)[i] = alpha (BitVec.ofNat 5 (v.toNat / 32 ^ (25 - i.val))) := by
  have e : 2 ^ (125 - 5 * i.val) = 32 ^ (25 - i.val) := by
    rw [show 125 - 5 * i.val = 5 * (25 - i.val) by have := i.isLt; omega, pow_mul]; rfl
  simp only [ulidEncodeFn, Fin.getElem_fin, Vector.getElem_ofFn]
  congr 1
  apply BitVec.eq_of_toNat_eq
  have hv : v.toNat % 2 ^ 130 = v.toNat := Nat.mod_eq_of_lt (lt_trans v.isLt (by decide))
  rw [BitVec.extractLsb'_toNat, BitVec.toNat_setWidth, hv, Nat.shiftRight_eq_div_pow, e, BitVec.toNat_ofNat]

/-- The text part of a padded ULID text. -/
theorem padText_getElem_lt (u : UlidText) (i : Fin 26) : (padText u)[i.val] = u[i] := by
  simp only [padText, Fin.getElem_fin]
  exact Vector.getElem_append_left i.isLt

/-- The padding of a padded ULID text (rule R34). -/
theorem padText_getElem_ge (u : UlidText) (i : Fin 36) (h : 26 ≤ i.val) : (padText u)[i] = 0 := by
  simp only [padText, Fin.getElem_fin]
  rw [Vector.getElem_append_right (by have := i.isLt; omega) h]
  simp

/-- The padded ULID form of an identifier is its ULID text (rules R101, R107). -/
theorem isUlidTextOf_encode (id : Ident) : isUlidTextOf (padText (ulidEncodeFn (identValue id))) id := by
  refine ⟨fun i => ?_, padText_getElem_ge _⟩
  rw [padText_getElem_lt, ulidEncodeFn_getElem, identValue_toNat]

/-- Two texts that are the ULID form of one identifier are the same. -/
theorem isUlidTextOf_unique {t u : Text} {id : Ident} (ht : isUlidTextOf t id) (hu : isUlidTextOf u id) : t = u := by
  apply Vector.ext
  intro i hi
  by_cases h : i < 26
  · exact (ht.1 ⟨i, h⟩).trans (hu.1 ⟨i, h⟩).symm
  · exact (ht.2 ⟨i, hi⟩ (by simp; omega)).trans (hu.2 ⟨i, hi⟩ (by simp; omega)).symm

/-! ### Codec-UUID -/

/-- The hyphen test of rules R120 and R140. -/
theorem hyphensInPlace_iff (t : Text) : hyphensInPlace t = true ↔ hasHyphens t := by
  simp [hyphensInPlace, hasHyphens, hyphen, and_assoc]

/-- A length other than 32 and 36 (rule R124). -/
theorem uuidDecodeFn_length {n : BitVec 8} (t : Text) (h : n ≠ 32) (h' : n ≠ 36) :
    uuidDecodeFn n t = .error .shape := by
  rw [uuidDecodeFn, if_neg h', if_neg h]

/-- A misplaced hyphen. -/
theorem uuidDecodeFn_hyphens {n : BitVec 8} {t : Text} (hn : n = 36) (h : ¬ hasHyphens t) :
    uuidDecodeFn n t = .error .hex := by
  rw [← hyphensInPlace_iff] at h
  rw [uuidDecodeFn, if_pos hn, if_neg h]

/-- Digit character k of a hyphenated text stands at the position of rule R77. -/
theorem uuidDigitChars_eq_ofFn (t : Text) :
    uuidDigitChars t = List.ofFn fun k : Fin 32 => t[uuidDigitPos k] := by
  simp only [uuidDigitChars, slice_eq_ofFn t 0 8 (by omega), slice_eq_ofFn t 9 4 (by omega),
    slice_eq_ofFn t 14 4 (by omega), slice_eq_ofFn t 19 4 (by omega), slice_eq_ofFn t 24 12 (by omega)]
  rfl

/-- The digit loop on a finite sequence of digits. -/
theorem decodeHexDigits_ok {g : Fin 32 → Byte} {d : Fin 32 → BitVec 4} (h : ∀ k, hexval (g k) = some (d k)) :
    ∃ id, decodeHexDigits (List.ofFn g) = .ok id ∧ identOfNibbles id d := by
  refine ⟨identOfDigits (List.ofFn d), ?_, fun j => ?_⟩
  · simp only [decodeHexDigits, charValues_ofFn hexval g d h]
  · have hj := j.isLt
    have h1 : (List.ofFn d).getD (2 * j.val) 0 = d ⟨2 * j.val, by omega⟩ := by
      rw [List.getD_eq_getElem?_getD, List.getElem?_ofFn, dif_pos (by omega)]; rfl
    have h2 : (List.ofFn d).getD (2 * j.val + 1) 0 = d ⟨2 * j.val + 1, by omega⟩ := by
      rw [List.getD_eq_getElem?_getD, List.getElem?_ofFn, dif_pos (by omega)]; rfl
    have hlt := (d ⟨2 * j.val + 1, by omega⟩).isLt
    simp only [identOfDigits, Fin.getElem_fin, Vector.getElem_ofFn, h1, h2]
    rw [BitVec.toNat_append, Nat.shiftLeft_eq, Nat.mul_comm, ← Nat.two_pow_add_eq_or_of_lt hlt]

/-- A digit that is not hex. -/
theorem decodeHexDigits_error {g : Fin 32 → Byte} (h : ∃ k, hexval (g k) = none) :
    decodeHexDigits (List.ofFn g) = .error .hex := by
  have : charValues hexval (List.ofFn g) = none := by
    rw [charValues_eq_none_iff]
    obtain ⟨k, hk⟩ := h
    exact ⟨_, List.mem_ofFn.2 ⟨k, rfl⟩, hk⟩
  simp only [decodeHexDigits, this]

/-- The hyphenated form: the hyphens in place leave the digit loop. -/
theorem uuidDecodeFn_hyphenated {n : BitVec 8} {t : Text} (hn : n = 36) (h : hasHyphens t) :
    uuidDecodeFn n t = decodeHexDigits (List.ofFn fun k : Fin 32 => t[uuidDigitPos k]) := by
  rw [← hyphensInPlace_iff] at h
  rw [uuidDecodeFn, if_pos hn, if_pos h, uuidDigitChars_eq_ofFn]

/-- The bare form: the digit loop on the first 32 characters. -/
theorem uuidDecodeFn_bare {n : BitVec 8} (t : Text) (hn : n = 32) :
    uuidDecodeFn n t = decodeHexDigits (List.ofFn fun k : Fin 32 => t[k.val]) := by
  rw [uuidDecodeFn, if_neg (by rw [hn]; decide), if_pos hn, slice_eq_ofFn t 0 32 (by omega)]
  simp

/-- Two identifiers with the same nibbles are the same. -/
theorem identOfNibbles_unique {a b : Ident} {d : Fin 32 → BitVec 4} (ha : identOfNibbles a d)
    (hb : identOfNibbles b d) : a = b := by
  apply Vector.ext
  intro j hj
  exact BitVec.eq_of_toNat_eq ((ha ⟨j, hj⟩).trans (hb ⟨j, hj⟩).symm)

/-- Digit 2j of the hex digits of an identifier: the high nibble of byte j (rule R121). -/
theorem hexDigitsOf_even (id : Ident) (j : Fin 16) :
    (hexDigitsOf id)[2 * j.val]'(by omega) = hexl (BitVec.ofNat 4 (id[j].toNat / 16)) := by
  have e1 : (2 * j.val) / 2 = j.val := by omega
  have e2 : (2 * j.val) % 2 = 0 := by omega
  simp only [hexDigitsOf, Vector.getElem_ofFn, e1, e2, if_true]
  congr 1
  apply BitVec.eq_of_toNat_eq
  rw [BitVec.extractLsb'_toNat, Nat.shiftRight_eq_div_pow, BitVec.toNat_ofNat]
  rfl

/-- Digit 2j+1: the low nibble. -/
theorem hexDigitsOf_odd (id : Ident) (j : Fin 16) :
    (hexDigitsOf id)[2 * j.val + 1]'(by omega) = hexl (BitVec.ofNat 4 (id[j].toNat % 16)) := by
  have e1 : (2 * j.val + 1) / 2 = j.val := by omega
  have e2 : ¬ (2 * j.val + 1) % 2 = 0 := by omega
  simp only [hexDigitsOf, Vector.getElem_ofFn, e1, e2, if_false]
  congr 1
  apply BitVec.eq_of_toNat_eq
  rw [BitVec.extractLsb'_toNat, BitVec.toNat_ofNat]
  simp only [Nat.shiftRight_zero, Nat.reducePow, Nat.mod_mod, Fin.getElem_fin]

/-- Digit k stands at its position once the hyphens are in. -/
theorem withHyphens_digit (l : List Byte) (hl : l.length = 32) (k : Fin 32) :
    (withHyphens l).getD (uuidDigitPos k).val 0 = l.getD k.val 0 := by
  match l, hl with
  | [_, _, _, _, _, _, _, _, _, _, _, _, _, _, _, _, _, _, _, _, _, _, _, _, _, _, _, _, _, _, _, _], _ =>
    fin_cases k <;> rfl

/-- The four hyphens. -/
theorem withHyphens_hyphen (l : List Byte) (hl : l.length = 32) :
    (withHyphens l).getD 8 0 = hyphen ∧ (withHyphens l).getD 13 0 = hyphen ∧ (withHyphens l).getD 18 0 = hyphen
      ∧ (withHyphens l).getD 23 0 = hyphen := by
  match l, hl with
  | [_, _, _, _, _, _, _, _, _, _, _, _, _, _, _, _, _, _, _, _, _, _, _, _, _, _, _, _, _, _, _, _], _ =>
    exact ⟨rfl, rfl, rfl, rfl⟩

/-- The character of digit k in the UUID form. -/
theorem uuidEncodeFn_digit (id : Ident) (k : Fin 32) : (uuidEncodeFn id)[uuidDigitPos k] = (hexDigitsOf id)[k] := by
  simp only [uuidEncodeFn, Fin.getElem_fin, Vector.getElem_ofFn]
  rw [withHyphens_digit _ (by simp)]
  simp [List.getD_eq_getElem?_getD]

/-- The hyphens of the UUID form (rule R122). -/
theorem uuidEncodeFn_hyphens (id : Ident) : hasHyphens (uuidEncodeFn id) := by
  simp only [hasHyphens, uuidEncodeFn, Vector.getElem_ofFn]
  exact withHyphens_hyphen _ (by simp)

/-- The UUID form of an identifier is its UUID text (rules R121, R122). -/
theorem isUuidTextOf_encode (id : Ident) : isUuidTextOf (uuidEncodeFn id) id := by
  refine ⟨uuidEncodeFn_hyphens id, fun j => ⟨?_, ?_⟩⟩
  · rw [uuidEncodeFn_digit]; exact hexDigitsOf_even id j
  · rw [uuidEncodeFn_digit]; exact hexDigitsOf_odd id j

/-! ### The classifier -/

/-- The ULID shape is the first test of rule R140. -/
theorem ulidShape_iff (n : BitVec 8) (t : Text) :
    (n = 26 ∧ allInTable sym (slice t 0 26) = true) ↔ ulidShape n t := by
  rw [ulidShape, allInTable_iff, slice_eq_ofFn t 0 26 (by omega)]
  simp only [List.forall_mem_ofFn_iff, Nat.zero_add]

/-- The UUID shape is the second test of rule R140. -/
theorem uuidShape_iff (n : BitVec 8) (t : Text) : (n = 36 ∧ hyphensInPlace t = true) ↔ uuidShape n t := by
  rw [uuidShape, hyphensInPlace_iff]

/-- The GUID shape is the third test of rule R140. -/
theorem guidShape_iff (n : BitVec 8) (t : Text) :
    (n = 32 ∧ allInTable hexval (slice t 0 32) = true) ↔ guidShape n t := by
  rw [guidShape, allInTable_iff, slice_eq_ofFn t 0 32 (by omega)]
  simp only [List.forall_mem_ofFn_iff, Nat.zero_add]

/-- Everything the classifier can answer, with the shape of each answer (rules R140, R141). -/
theorem classifyFn_cases (n : BitVec 8) (t : Text) :
    (ulidShape n t ∧ classifyFn n t = .ulid) ∨ (uuidShape n t ∧ classifyFn n t = .uuid)
      ∨ (guidShape n t ∧ classifyFn n t = .guid)
      ∨ (¬ ulidShape n t ∧ ¬ uuidShape n t ∧ ¬ guidShape n t ∧ classifyFn n t = .unrecognized) := by
  rw [← ulidShape_iff, ← uuidShape_iff, ← guidShape_iff, classifyFn]
  by_cases h1 : n = 26 ∧ allInTable sym (slice t 0 26) = true
  · exact .inl ⟨h1, if_pos h1⟩
  rw [if_neg h1]
  by_cases h2 : n = 36 ∧ hyphensInPlace t = true
  · exact .inr (.inl ⟨h2, if_pos h2⟩)
  rw [if_neg h2]
  by_cases h3 : n = 32 ∧ allInTable hexval (slice t 0 32) = true
  · exact .inr (.inr (.inl ⟨h3, if_pos h3⟩))
  · exact .inr (.inr (.inr ⟨h1, h2, h3, if_neg h3⟩))

/-- The three shapes have three lengths, so no text has two (rules R79, R141). -/
theorem classifyFn_ulid {n : BitVec 8} {t : Text} (h : ulidShape n t) : classifyFn n t = .ulid := by
  rcases classifyFn_cases n t with ⟨_, e⟩ | ⟨h', _⟩ | ⟨h', _⟩ | ⟨h', _⟩
  · exact e
  · exact absurd (h.1.symm.trans h'.1) (by decide)
  · exact absurd (h.1.symm.trans h'.1) (by decide)
  · exact absurd h h'

theorem classifyFn_uuid {n : BitVec 8} {t : Text} (h : uuidShape n t) : classifyFn n t = .uuid := by
  rcases classifyFn_cases n t with ⟨h', _⟩ | ⟨_, e⟩ | ⟨h', _⟩ | ⟨_, h', _⟩
  · exact absurd (h.1.symm.trans h'.1) (by decide)
  · exact e
  · exact absurd (h.1.symm.trans h'.1) (by decide)
  · exact absurd h h'

theorem classifyFn_guid {n : BitVec 8} {t : Text} (h : guidShape n t) : classifyFn n t = .guid := by
  rcases classifyFn_cases n t with ⟨h', _⟩ | ⟨h', _⟩ | ⟨_, e⟩ | ⟨_, _, h', _⟩
  · exact absurd (h.1.symm.trans h'.1) (by decide)
  · exact absurd (h.1.symm.trans h'.1) (by decide)
  · exact e
  · exact absurd h h'

theorem classifyFn_unrecognized {n : BitVec 8} {t : Text} (h1 : ¬ ulidShape n t) (h2 : ¬ uuidShape n t)
    (h3 : ¬ guidShape n t) : classifyFn n t = .unrecognized := by
  rcases classifyFn_cases n t with ⟨h', _⟩ | ⟨h', _⟩ | ⟨h', _⟩ | ⟨_, _, _, e⟩
  · exact absurd h' h1
  · exact absurd h' h2
  · exact absurd h' h3
  · exact e

end Sys2Proof.Machine
end

