-- ==== Sys2Proof/Laws/PerInstr.lean ====
section
/-! SUPPORT. What holds of every operation as syntax, one lemma per constructor. -/

namespace Sys2Proof.Laws.TableWord

/-- The operation's code, taken as an instruction word of one byte, decodes to the operation, which is well
formed (rules R70, R71). -/
def Statement (i : Instr) : Prop := decodeTableWord 8 (encode i).toNat = some i ∧ i.wf = true

theorem convert : Statement .convert := ⟨by decide, rfl⟩
theorem classify : Statement .classify := ⟨by decide, rfl⟩
theorem ulidDecode : Statement .ulidDecode := ⟨by decide, rfl⟩
theorem ulidEncode : Statement .ulidEncode := ⟨by decide, rfl⟩
theorem uuidDecode : Statement .uuidDecode := ⟨by decide, rfl⟩
theorem uuidEncode : Statement .uuidEncode := ⟨by decide, rfl⟩

end Sys2Proof.Laws.TableWord
end

