-- ==== Sys2Proof/Tests/Slice0.lean ====
section
/-! SUPPORT. The model's own tests: the WellFormed smoke, one word per constructor, at most two vectors of
95_test_vectors.md per operation, the clock edges, and a witness for the hypotheses of every statement that
has some. Expected values are the spec's. -/

namespace Sys2Proof.Tests

open Sys2Proof.Machine

/-! ### WellFormed: each check refuses its ill-formed term -/

theorem test_wf_text_line_needs_text_operation : ScriptLine.wf (.text .ulidEncode [0x30]) = false := by decide
theorem test_wf_text_line_of_text_operation : ScriptLine.wf (.text .convert [0x30]) = true := by decide
theorem test_wf_ident_line_needs_identifier_operation : ScriptLine.wf (.ident .uuidDecode Ident.zero) = false := by decide
theorem test_wf_ident_line_of_identifier_operation : ScriptLine.wf (.ident .uuidEncode Ident.zero) = true := by decide
theorem test_wf_raw_op_above_seven : ScriptLine.wf (.rawOp 8) = false := by decide
theorem test_wf_raw_op_seven : ScriptLine.wf (.rawOp 7) = true := by decide
theorem test_wf_expect_value_too_wide : ScriptLine.wf (.expect .errClass 8) = false := by decide
theorem test_wf_expect_value_fits : ScriptLine.wf (.expect .errClass 7) = true := by decide

/-! ### Decoding: the codes of rule R71's table, written out bit by bit -/

theorem test_decode_convert : decode 0b000 = .ok .convert := by decide
theorem test_decode_classify : decode 0b001 = .ok .classify := by decide
theorem test_decode_ulidDecode : decode 0b010 = .ok .ulidDecode := by decide
theorem test_decode_ulidEncode : decode 0b011 = .ok .ulidEncode := by decide
theorem test_decode_uuidDecode : decode 0b100 = .ok .uuidDecode := by decide
theorem test_decode_uuidEncode : decode 0b101 = .ok .uuidEncode := by decide
theorem test_decode_reserved_six : decode 0b110 = .error (.reservedOp 0b110) := by decide
theorem test_decode_reserved_seven : decode 0b111 = .error (.reservedOp 0b111) := by decide
theorem test_decodeTableWord_five : decodeTableWord 8 5 = some .uuidEncode := by decide
theorem test_decodeTableWord_reserved : decodeTableWord 8 6 = none := by decide

/-! ### Helpers -/

/-- A text in the 36-byte buffer, 0x00 past its end. -/
def textOf (chars : List Byte) : Text := textPort chars Text.zero

/-- An identifier from its 32 hex digits (big-endian). -/
def idOf (v : Nat) : Ident := identOfValue (BitVec.ofNat 128 v)

/-- A BUSY machine whose completion is due, with these captured registers. -/
def due (op : BitVec 3) (n : BitVec 8) (t : Text) (id : Ident) : State :=
  { State.reset with fsm := .busy, captured := ⟨op, n, t, id⟩, cyclesLeft := 1 }

/-- The next state of an outcome. -/
def nextOf (o : Host.Outcome State Fault Refusal) : State :=
  match o with
  | .next s => s
  | .fault _ => State.reset
  | .refused _ => State.reset

/-- The result registers after an operation on a text. -/
def onText (i : Instr) (n : BitVec 8) (chars : List Byte) : Results :=
  (nextOf (exec i (due (encode i) n (textOf chars) Ident.zero))).results

/-- The result registers after an operation on an identifier. -/
def onIdent (i : Instr) (v : Nat) : Results :=
  (nextOf (exec i (due (encode i) 0 Text.zero (idOf v)))).results

/-- `08A1YW3WAH8SNTQVYGDB2EP69T` (V1). -/
def ulidV1 : List Byte :=
  [0x30, 0x38, 0x41, 0x31, 0x59, 0x57, 0x33, 0x57, 0x41, 0x48, 0x38, 0x53, 0x4E, 0x54, 0x51, 0x56, 0x59, 0x47, 0x44,
   0x42, 0x32, 0x45, 0x50, 0x36, 0x39, 0x54]

/-- `08a1yw3wah8sntqvygdb2ep69t` (P1, step 2). -/
def ulidV1Lower : List Byte :=
  [0x30, 0x38, 0x61, 0x31, 0x79, 0x77, 0x33, 0x77, 0x61, 0x68, 0x38, 0x73, 0x6e, 0x74, 0x71, 0x76, 0x79, 0x67, 0x64,
   0x62, 0x32, 0x65, 0x70, 0x36, 0x39, 0x74]

/-- `08507dc1-f151-466b-abef-d06ac4eb193a` (P1, step 5). -/
def uuidV1 : List Byte :=
  [0x30, 0x38, 0x35, 0x30, 0x37, 0x64, 0x63, 0x31, 0x2d, 0x66, 0x31, 0x35, 0x31, 0x2d, 0x34, 0x36, 0x36, 0x62, 0x2d,
   0x61, 0x62, 0x65, 0x66, 0x2d, 0x64, 0x30, 0x36, 0x61, 0x63, 0x34, 0x65, 0x62, 0x31, 0x39, 0x33, 0x61]

/-- `cfa45f5d9c384772b39a036a0b9f8d30` (P2, step 2). -/
def guidV2 : List Byte :=
  [0x63, 0x66, 0x61, 0x34, 0x35, 0x66, 0x35, 0x64, 0x39, 0x63, 0x33, 0x38, 0x34, 0x37, 0x37, 0x32, 0x62, 0x33, 0x39,
   0x61, 0x30, 0x33, 0x36, 0x61, 0x30, 0x62, 0x39, 0x66, 0x38, 0x64, 0x33, 0x30]

/-- `6FMHFNV71R8XSB76G3D85SZ39G` (V2). -/
def ulidV2 : List Byte :=
  [0x36, 0x46, 0x4D, 0x48, 0x46, 0x4E, 0x56, 0x37, 0x31, 0x52, 0x38, 0x58, 0x53, 0x42, 0x37, 0x36, 0x47, 0x33, 0x44,
   0x38, 0x35, 0x53, 0x5A, 0x33, 0x39, 0x47]

/-- `FFMHFNV71R8XSB76G3D85SZ39G` (P3, step 2). -/
def ulidV4 : List Byte := 0x46 :: ulidV2.drop 1

/-! ### Vectors of 95_test_vectors.md -/

/-- D-U3 -/
theorem test_ulidDecode_value :
    onText .ulidDecode 26 ulidV1 = ⟨0, 0, 0, 0, Text.zero, idOf 0x08507dc1f151466babefd06ac4eb193a⟩ := by decide
/-- D-U9: character set before range -/
theorem test_ulidDecode_shape_before_range :
    onText .ulidDecode 26 (0x38 :: List.replicate 24 0x30 ++ [0x21]) = emptyOutputs 1 0 := by decide
/-- D-E8 -/
theorem test_ulidEncode_text :
    onIdent .ulidEncode 0x08507dc1f151466babefd06ac4eb193a
      = ⟨0, 0, 0, 26, textOf ulidV1, idOf 0x08507dc1f151466babefd06ac4eb193a⟩ := by decide
/-- D-E5: bit 127 lands in symbol 0 as value 4 -/
theorem test_ulidEncode_top_bit :
    (onIdent .ulidEncode 0x80000000000000000000000000000000).outText = textOf (0x34 :: List.replicate 25 0x30) := by
  decide
/-- D-H3 -/
theorem test_uuidDecode_bare :
    onText .uuidDecode 32 guidV2 = ⟨0, 0, 0, 0, Text.zero, idOf 0xcfa45f5d9c384772b39a036a0b9f8d30⟩ := by decide
/-- D-H8: a hyphen in the bare form (at position 8) -/
theorem test_uuidDecode_hyphen_in_bare :
    onText .uuidDecode 32 (guidV2.take 8 ++ [0x2D] ++ guidV2.drop 9) = emptyOutputs 3 0 := by decide
/-- D-X3 -/
theorem test_uuidEncode_text :
    onIdent .uuidEncode 0x08507dc1f151466babefd06ac4eb193a
      = ⟨0, 0, 0, 36, textOf uuidV1, idOf 0x08507dc1f151466babefd06ac4eb193a⟩ := by decide
/-- D-C2: out of range, but its shape is ULID -/
theorem test_classify_out_of_range_ulid :
    onText .classify 26 ulidV4 = ⟨0, 0, 1, 0, Text.zero, Ident.zero⟩ := by decide
/-- D-C6: a GUID needs all hex -/
theorem test_classify_guid_needs_hex : onText .classify 32 (guidV2.take 31 ++ [0x67]) = emptyOutputs 1 4 := by decide
/-- D-V2 -/
theorem test_convert_lower_case_ulid :
    onText .convert 26 ulidV1Lower = ⟨0, 0, 1, 36, textOf uuidV1, idOf 0x08507dc1f151466babefd06ac4eb193a⟩ := by decide
/-- D-V5 -/
theorem test_convert_guid :
    onText .convert 32 guidV2 = ⟨0, 0, 3, 26, textOf ulidV2, idOf 0xcfa45f5d9c384772b39a036a0b9f8d30⟩ := by decide

/-! ### Clock edges -/

/-- D-P4 -/
theorem test_reserved_status : readStatus 0 (nextOf (step (due 7 0 Text.zero Ident.zero))) = 0x0026 := by decide
/-- D-V6's STATUS, through a step -/
theorem test_range_status : readStatus 0 (nextOf (step (due 0 26 (textOf ulidV4) Ident.zero))) = 0x0056 := by decide
/-- D-P2: after the accepted start `STATUS[1:0] = 0b01` -/
theorem test_accepted_start_busy :
    (readBusy (nextOf (step { State.reset with inputs := { Inputs.quiet with start := 1 } })),
      readDone (nextOf (step { State.reset with inputs := { Inputs.quiet with start := 1 } }))) = (1, 0) := by decide
/-- D-P1 -/
theorem test_reset_status : readStatus 0 State.reset = 0x0000 := by decide
/-- The word placed by `withFetchWord` runs at the very next step. -/
theorem test_withFetchWord_runs :
    nextOf (step (State.reset.withFetchWord 8 5))
      = nextOf (exec .uuidEncode (State.reset.withFetchWord 8 5)) := by decide

/-- P3, step 6: the EXPECT line after `OP6`. -/
theorem test_expect_status : expectHolds 0 (nextOf (step (due 6 0 Text.zero Ident.zero))) .status 0x0026 = true := by
  decide
/-- `OP7` and WAIT: one drive with `START = 1`, the wait, and no request after the last line (rule R89). -/
theorem test_script_moves :
    scriptMoves Inputs.quiet [.rawOp 7, .wait]
      = [.drive { Inputs.quiet with start := 1, op := 7 }, .wait, .drive Inputs.quiet] := by decide
/-- A machine at power-on with `RST = 1` on its port is reset by the next edge (rule R182). -/
theorem test_power_on_then_reset :
    (nextOf (step (powerOn { Inputs.quiet with rst := 1 } [] 0))).sawReset = true
      ∧ readStatus 0 (nextOf (step (powerOn { Inputs.quiet with rst := 1 } [] 0))) = 0 := by decide

/-! ### Witnesses: the hypotheses of each statement hold together -/

/-- The reset state with these ports. -/
def withPorts (rst start : BitVec 1) : State :=
  { State.reset with inputs := { Inputs.quiet with rst := rst, start := start } }

theorem witness_ResetEdgeGivesTheResetValues : (withPorts 1 1).inputs.rst = 1 := by decide

/-- BUSY, `RST = 1`, and a host that then drives nothing. -/
def resetWhileBusy : State :=
  { due 0 0 Text.zero Ident.zero with inputs := { Inputs.quiet with rst := 1 }, script := [.drive Inputs.quiet] }

theorem witness_ResetCutsOffTheOperationForGood :
    resetWhileBusy.inputs.rst = 1 ∧ resetWhileBusy.fsm = .busy ∧ resetWhileBusy.noStartAhead
      ∧ (∀ p, HostMove.drive p ∈ resetWhileBusy.script → p.rst = 0)
      ∧ ∃ t, step resetWhileBusy = .next t ∧ t.inputs.start = 0 ∧ t.inputs.rst = 0 := by
  refine ⟨rfl, rfl, ?_, ?_, _, rfl, rfl, rfl⟩ <;>
    · intro p hp
      simp only [resetWhileBusy, List.mem_singleton, HostMove.drive.injEq] at hp
      rw [hp]; rfl

theorem witness_ResetThenStartIsAccepted :
    ∃ (s : State) (p : Inputs) (rest : List HostMove),
      s.inputs.rst = 1 ∧ s.script = .drive p :: rest ∧ p.rst = 0 ∧ p.start = 1 :=
  ⟨{ withPorts 1 0 with script := [.drive { Inputs.quiet with start := 1 }] }, _, _, rfl, rfl, rfl, rfl⟩

theorem witness_AcceptedStartCapturesTheInputs : (withPorts 0 1).accepting := by decide

theorem witness_BusyIgnoresTheInputPorts_waiting :
    State.ordinary { due 0 0 Text.zero Ident.zero with cyclesLeft := 2 }
      ∧ (due 0 0 Text.zero Ident.zero).fsm = .busy ∧ (withPorts 0 1).inputs.rst = 0 := by decide
theorem witness_BusyIgnoresTheInputPorts_completing :
    (due 0 0 Text.zero Ident.zero).ordinary ∧ (due 0 0 Text.zero Ident.zero).fsm = .busy
      ∧ (nextOf (step (due 0 0 Text.zero Ident.zero))).fsm = .idle := by decide

theorem witness_IdleEdgeHoldsEveryRegister :
    State.reset.ordinary ∧ State.reset.fsm = .idle ∧ State.reset.inputs.start = 0 := by decide

theorem witness_FsmMoves_and_DoneFollows_reset : (withPorts 1 0).sawReset = true ∧ (withPorts 1 0).inputs.rst = 1 := by
  decide
theorem witness_FsmMoves_and_DoneFollows_accepting : (withPorts 0 1).sawReset = true ∧ (withPorts 0 1).accepting := by
  decide
theorem witness_FsmMoves_and_DoneFollows_completing :
    (due 0 0 Text.zero Ident.zero).sawReset = true ∧ (due 0 0 Text.zero Ident.zero).completing := by decide
theorem witness_FsmMoves_and_DoneFollows_other :
    State.reset.sawReset = true ∧ State.reset.inputs.rst ≠ 1 ∧ ¬ State.reset.accepting ∧ ¬ State.reset.completing := by
  decide

theorem witness_StepRunsTheCapturedOperation :
    (due 5 0 Text.zero Ident.zero).completing ∧ decode (due 5 0 Text.zero Ident.zero).captured.opQ = .ok .uuidEncode := by
  decide

theorem witness_ReservedCodes_six :
    (due 6 0 Text.zero Ident.zero).completing ∧ (due 6 0 Text.zero Ident.zero).captured.opQ = 0b110 := by decide
theorem witness_ReservedCodes_seven :
    (due 7 0 Text.zero Ident.zero).completing ∧ (due 7 0 Text.zero Ident.zero).captured.opQ = 0b111 := by decide

theorem witness_AcceptedStartCompletesAfterLatency :
    (withPorts 0 1).accepting ∧ (withPorts 0 1).noResetAhead ∧ decode (withPorts 0 1).inputs.op = .ok .convert :=
  ⟨by decide, ⟨rfl, fun p hp => by simp [withPorts, State.reset] at hp⟩, by decide⟩
theorem witness_AcceptedStartCompletesAfterLatency_reserved :
    State.accepting { State.reset with inputs := { Inputs.quiet with start := 1, op := 7 } }
      ∧ State.noResetAhead { State.reset with inputs := { Inputs.quiet with start := 1, op := 7 } } :=
  ⟨by decide, ⟨rfl, fun p hp => by simp [State.reset] at hp⟩⟩

theorem witness_StatusPacksTheRegisters : resultsSpecified State.reset = true := by decide

/-- The symbols of `7ZZZ...Z`, the largest text in range. -/
def largestSymbols : Fin 26 → BitVec 5 := fun i => if i = 0 then 7 else 31
/-- The symbols of `8000...0`, the smallest text out of range. -/
def overflowSymbols : Fin 26 → BitVec 5 := fun i => if i = 0 then 8 else 0
/-- `7ZZZ...Z` -/
def largestText : Text := textOf (0x37 :: List.replicate 25 0x5A)
/-- `8000...0` -/
def overflowText : Text := textOf (0x38 :: List.replicate 25 0x30)

theorem witness_UlidDecodeGives_and_ConvertTurnsUlid :
    spellsSymbols largestText largestSymbols ∧ (largestSymbols 0).toNat < 8 :=
  ⟨by unfold spellsSymbols; decide, by decide⟩
theorem witness_UlidDecodeFails_length : (25 : BitVec 8) ≠ 26 ∧ (27 : BitVec 8) ≠ 26 := by decide
theorem witness_UlidDecodeFails_charset : ∃ i : Fin 26, sym (textOf (List.replicate 25 0x30 ++ [0x49]))[i.val] = none :=
  ⟨25, by decide⟩
theorem witness_UlidDecodeFails_and_ConvertFails_range :
    spellsSymbols overflowText overflowSymbols ∧ 8 ≤ (overflowSymbols 0).toNat :=
  ⟨by unfold spellsSymbols; decide, by decide⟩

theorem witness_UlidEncodeThenDecodeIsIdentity :
    ∃ s' : State, s'.captured.lenQ = 26
      ∧ ∀ i : Fin 26, s'.captured.textQ[i.val] = (onIdent .ulidEncode 1).outText[i.val] :=
  ⟨due 2 26 (onIdent .ulidEncode 1).outText Ident.zero, rfl, fun _ => rfl⟩
theorem witness_UlidDecodeThenEncodeIsUpperCase :
    ∃ s t s' : State, exec .ulidDecode s = .next t ∧ t.results.err = 0 ∧ s'.captured.idQ = t.results.outId :=
  ⟨due 2 26 largestText Ident.zero, _,
    due 3 0 Text.zero (nextOf (exec .ulidDecode (due 2 26 largestText Ident.zero))).results.outId, rfl, by decide, rfl⟩

/-- The digits of `08507dc1f151466babefd06ac4eb193a`. -/
def digitsV1 : Fin 32 → BitVec 4 := fun k => BitVec.ofNat 4 (0x08507dc1f151466babefd06ac4eb193a / 16 ^ (31 - k.val))
/-- The digits of `cfa45f5d9c384772b39a036a0b9f8d30`. -/
def digitsV2 : Fin 32 → BitVec 4 := fun k => BitVec.ofNat 4 (0xcfa45f5d9c384772b39a036a0b9f8d30 / 16 ^ (31 - k.val))

theorem witness_UuidDecodeReads_and_ConvertTurnsUuid :
    hasHyphens (textOf uuidV1) ∧ spellsUuidDigits (textOf uuidV1) digitsV1 :=
  ⟨by unfold hasHyphens; decide, by unfold spellsUuidDigits; decide⟩
theorem witness_UuidDecodeReadsBare_and_ConvertTurnsGuid : spellsGuidDigits (textOf guidV2) digitsV2 := by
  unfold spellsGuidDigits; decide
theorem witness_UuidDecodeFails_length : (35 : BitVec 8) ≠ 32 ∧ (35 : BitVec 8) ≠ 36 ∧ (31 : BitVec 8) ≠ 32 := by decide
/-- `cfa45f5d9-c38-...`'s case: position 8 holds no hyphen. -/
theorem witness_misplaced_hyphen : ¬ hasHyphens (textOf (List.replicate 36 0x30)) := by unfold hasHyphens; decide
/-- D-H12's case: the last digit is `g`, the hyphens are in place. -/
theorem witness_UuidDecodeFails_and_ConvertFails_digit :
    uuidShape 36 (textOf (uuidV1.take 35 ++ [0x67]))
      ∧ ∃ k : Fin 32, hexval (textOf (uuidV1.take 35 ++ [0x67]))[uuidDigitPos k] = none :=
  ⟨by unfold uuidShape hasHyphens; decide, 31, by decide⟩
/-- D-H8's case. -/
theorem witness_UuidDecodeFails_bare_digit :
    ∃ k : Fin 32, hexval (textOf (guidV2.take 8 ++ [0x2D] ++ guidV2.drop 9))[k.val] = none := ⟨8, by decide⟩

theorem witness_UuidEncodeThenDecode_hyphenated :
    ∃ s' : State, s'.captured.lenQ = 36 ∧ s'.captured.textQ = (onIdent .uuidEncode 1).outText :=
  ⟨due 4 36 (onIdent .uuidEncode 1).outText Ident.zero, rfl, rfl⟩
theorem witness_UuidEncodeThenDecode_bare :
    ∃ s' : State, s'.captured.lenQ = 32
      ∧ ∀ k : Fin 32, s'.captured.textQ[k.val] = (onIdent .uuidEncode 1).outText[uuidDigitPos k] :=
  ⟨due 4 32 (textOf (List.replicate 31 0x30 ++ [0x31])) Ident.zero, rfl, by decide⟩

theorem witness_Classify_ulid : ulidShape 26 overflowText := by unfold ulidShape; decide
theorem witness_Classify_uuid : uuidShape 36 (textOf uuidV1) := by unfold uuidShape hasHyphens; decide
theorem witness_Classify_guid : guidShape 32 (textOf guidV2) := by unfold guidShape; decide
theorem witness_Classify_and_ConvertFails_unrecognized :
    ¬ ulidShape 0 Text.zero ∧ ¬ uuidShape 0 Text.zero ∧ ¬ guidShape 0 Text.zero :=
  ⟨fun h => absurd h.1 (by decide), fun h => absurd h.1 (by decide), fun h => absurd h.1 (by decide)⟩

theorem witness_VerdictBounds_each_kind :
    (onText .convert 26 ulidV4).kind = 1 ∧ (onText .convert 36 (uuidV1.take 35 ++ [0x67])).kind = 2
      ∧ (onText .convert 32 guidV2).kind = 3 ∧ (onText .convert 0 []).kind = 4 := by decide

theorem witness_BadShape :
    (36 : BitVec 8) = 36 ∧ ¬ hasHyphens (textOf (List.replicate 36 0x30))
      ∧ ∃ k : Fin 32, hexval (textOf (guidV2.take 31 ++ [0x67]))[k.val] = none :=
  ⟨rfl, witness_misplaced_hyphen, 31, by decide⟩

/-- The first half of the round trip: CONVERT accepts V1's ULID text. -/
theorem witness_ConvertTwice_ulid_first :
    ∃ s t s' : State, exec .convert s = .next t ∧ s.captured.lenQ = 26 ∧ t.results.err = 0 ∧ s'.captured.lenQ = 36
      ∧ s'.captured.textQ = t.results.outText :=
  ⟨due 0 26 (textOf ulidV1) Ident.zero, _,
    due 0 36 (nextOf (exec .convert (due 0 26 (textOf ulidV1) Ident.zero))).results.outText Ident.zero,
    rfl, rfl, by decide, rfl, rfl⟩
theorem witness_ConvertTwice_uuid_first :
    ∃ s t s' : State, exec .convert s = .next t ∧ t.results.err = 0 ∧ s'.captured.lenQ = 26
      ∧ (∀ i : Fin 26, s'.captured.textQ[i.val] = t.results.outText[i.val]) ∧ s.captured.lenQ = 36 :=
  ⟨due 0 36 (textOf uuidV1) Ident.zero, _,
    due 0 26 (nextOf (exec .convert (due 0 36 (textOf uuidV1) Ident.zero))).results.outText Ident.zero,
    rfl, by decide, rfl, fun _ => rfl, rfl⟩
theorem witness_ConvertTwice_guid_first :
    ∃ s t s' : State, exec .convert s = .next t ∧ t.results.err = 0 ∧ s'.captured.lenQ = 26
      ∧ (∀ i : Fin 26, s'.captured.textQ[i.val] = t.results.outText[i.val]) ∧ s.captured.lenQ = 32 :=
  ⟨due 0 32 (textOf guidV2) Ident.zero, _,
    due 0 26 (nextOf (exec .convert (due 0 32 (textOf guidV2) Ident.zero))).results.outText Ident.zero,
    rfl, by decide, rfl, fun _ => rfl, rfl⟩

theorem witness_ResultsDepend_text :
    Instr.convert.operand = .text
      ∧ ∀ j : Fin 36, j.val < 26 → (textOf ulidV1)[j] = (textPort ulidV1 (Vector.replicate 36 0xFF))[j] := by decide
theorem witness_ResultsDepend_identifier : Instr.ulidEncode.operand = .identifier := by decide
theorem witness_LongTexts : Instr.classify.operand = .text ∧ 36 < (37 : BitVec 8).toNat ∧ 36 < (255 : BitVec 8).toNat := by
  decide

theorem witness_ScriptLinesStartTheirOperation :
    ∃ (s : State) (rest : List HostMove), s.ordinary ∧ s.fsm = .idle ∧ s.inputs.start = 0
      ∧ s.script = lineMoves Inputs.quiet (.text .convert ulidV1) ++ rest :=
  ⟨{ State.reset with script := lineMoves Inputs.quiet (.text .convert ulidV1) }, [], by decide, rfl, rfl,
    (List.append_nil _).symm⟩
theorem witness_ScriptLinesStartTheirOperation_ident :
    ∃ (s : State) (rest : List HostMove), s.ordinary ∧ s.fsm = .idle ∧ s.inputs.start = 0
      ∧ s.script = lineMoves Inputs.quiet (.ident .uuidEncode Ident.zero) ++ rest :=
  ⟨{ State.reset with script := lineMoves Inputs.quiet (.ident .uuidEncode Ident.zero) }, [], by decide, rfl, rfl,
    (List.append_nil _).symm⟩
theorem witness_ScriptLinesStartTheirOperation_rawOp :
    ∃ (s : State) (rest : List HostMove), s.ordinary ∧ s.fsm = .idle ∧ s.inputs.start = 0 ∧ 7 < 8
      ∧ s.script = lineMoves Inputs.quiet (.rawOp 7) ++ rest :=
  ⟨{ State.reset with script := lineMoves Inputs.quiet (.rawOp 7) }, [], by decide, rfl, rfl, by decide,
    (List.append_nil _).symm⟩
/-- P4, step 3: the RESET line is reached while CORE is BUSY. -/
theorem witness_ScriptResetLineResetsFromAnyState :
    ∃ (s : State) (rest : List HostMove), s.fsm = .busy ∧ s.script = lineMoves Inputs.quiet .reset ++ rest :=
  ⟨{ due 0 3 (textOf [0x61, 0x62, 0x63]) Ident.zero with script := lineMoves Inputs.quiet .reset }, [], rfl,
    (List.append_nil _).symm⟩
theorem witness_ExpectComparesThePortWithTheValue : resultsSpecified State.reset = true := by decide
theorem witness_OutputPortsShowTheirRegisters_idle : State.reset.sawReset = true ∧ State.reset.fsm = .idle := by decide
theorem witness_OutputPortsShowTheirRegisters_done :
    (nextOf (step (due 7 0 Text.zero Ident.zero))).sawReset = true
      ∧ (nextOf (step (due 7 0 Text.zero Ident.zero))).consistent
      ∧ (nextOf (step (due 7 0 Text.zero Ident.zero))).done = 1 := by decide
theorem witness_WaitHoldsStartLowUntilDone_waiting :
    (nextOf (step { State.reset with script := [.wait] })).done ≠ 1 := by decide
theorem witness_WaitHoldsStartLowUntilDone_done :
    (nextOf (step { due 7 0 Text.zero Ident.zero with script := [.wait] })).done = 1 := by decide

theorem witness_EveryStepKeepsConsistency :
    (withPorts 0 1).consistent ∧ ∃ t, step (withPorts 0 1) = .next t := ⟨by decide, _, rfl⟩
theorem witness_EveryStepKeepsTheCompletionBound :
    State.timely (withPorts 0 1) ∧ ∃ t, step (withPorts 0 1) = .next t := ⟨fun _ h => (nomatch h), _, rfl⟩
theorem witness_OpCodesDecodeAndEncodeAgree : decode 0b101 = .ok .uuidEncode := by decide
theorem witness_StepRunsAPlacedWord : decodeTableWord 8 3 = some .ulidEncode := by decide
/-- R81's last row in lower case, R83's upper-case row at both ends, and their neighbours outside. -/
theorem witness_AlphabetReadsBack_lower_case : sym 0x7A = some 31 ∧ sym 0x61 = some 10 ∧ sym 0x7B = none := by decide
theorem witness_HexDigitsReadBack_upper_case :
    hexval 0x41 = some 10 ∧ hexval 0x46 = some 15 ∧ hexval 0x47 = none ∧ hexval 0x40 = none := by decide

end Sys2Proof.Tests
end

