-- ==== Sys2Proof/Proofs/CompletionBound.lean ====
section
/-! PROOFS. The completion bound: each thing a clock edge can do keeps `State.timely` (rules R9, R32; log 3). -/

namespace Sys2Proof.Machine

/-- While IDLE no completion is outstanding, so the bound asks nothing. -/
theorem timely_of_idle {s : State} (hidle : s.fsm = .idle) : s.timely := by
  intro _ hbusy
  rw [hidle] at hbusy
  cases hbusy

/-- Before the first reset the bound asks nothing (rule R182). -/
theorem timely_of_unreset {s : State} (hunreset : s.sawReset = false) : s.timely := by
  intro hreset
  rw [hunreset] at hreset
  cases hreset

/-- An accepted start sets the counter to the whole `LATENCY` of what it captures (rules R30, R32). -/
theorem timely_acceptStart (s : State) : (acceptStart s).timely :=
  fun _ _ => ⟨one_le_latency _, le_rfl⟩

/-- A busy edge with more than one edge left takes one away and keeps the captured registers (rule R31). -/
theorem timely_busyEdge {s : State} (hs : s.timely) (hleft : 1 < s.cyclesLeft) :
    (busyEdge s).timely := by
  intro hreset hbusy
  obtain ⟨-, hle⟩ := hs hreset hbusy
  simp only [busyEdge_cyclesLeft, busyEdge_captured]
  omega

/-- A completion edge leaves CORE IDLE (rules R32, R58). -/
theorem completionEdge_fsm {s t : State} (h : completionEdge s = .next t) : t.fsm = .idle := by
  rcases completionEdge_cases s with ⟨_, -, e⟩ | ⟨_, -, e⟩ <;>
    · rw [e] at h; cases h; rfl

/-- CORE's edge keeps the completion bound. -/
theorem coreEdge_keeps_timely {s t : State} (hs : s.timely) (h : coreEdge s = .next t) :
    t.timely := by
  rcases coreEdge_cases s with ⟨-, e⟩ | ⟨-, hunreset, e⟩ | ⟨-, e⟩ | ⟨-, -, -, e⟩
      | ⟨-, -, hleft, e⟩ | ⟨-, e⟩ <;> rw [e] at h
  case inr.inr.inr.inr.inr => exact timely_of_idle (completionEdge_fsm h)
  all_goals cases h
  · exact timely_of_idle (resetEdge_fsm s)
  · exact timely_of_unreset hunreset
  · exact timely_acceptStart s
  · exact hs
  · exact timely_busyEdge hs hleft

/-- The host's move touches none of the registers the bound speaks of (rules R59, R188). -/
theorem hostMove_timely {s : State} (hs : s.timely) : (hostMove s).timely := hs

/-- Settles O47: CORE's edge keeps the bound in each of its cases, and the host's move leaves it alone. -/
theorem everyStepKeepsTheCompletionBound : Obligations.EveryStepKeepsTheCompletionBound := by
  unfold Obligations.EveryStepKeepsTheCompletionBound
  intro s u hs hstep
  obtain ⟨t, hedge, rfl⟩ := coreEdge_of_step hstep
  exact hostMove_timely (coreEdge_keeps_timely hs hedge)

end Sys2Proof.Machine
end

