-- ==== Sys2Proof/Proofs/LegalResults.lean ====
section
/-! PROOFS. What a completion writes: legal result registers (rules R27 to R29, R33, R34, R163), the verdict in
`KIND`, and nothing outside the result registers, `DONE` and `FSM` (rules R32, R58). -/

namespace Sys2Proof.Machine

/-! ### The codes of ERR_CLASS and KIND -/

theorem errClass_code_le (e : ErrClass) : e.code.toNat ≤ 4 := by cases e <;> decide

theorem errClass_code_ne_zero (e : ErrClass) : e.code ≠ 0 := by cases e <;> decide

theorem kind_code_le (v : Kind) : v.code.toNat ≤ 4 := by cases v <;> decide

theorem kind_code_ne_zero (v : Kind) : v.code ≠ 0 := by cases v <;> decide

/-! ### The shapes of result a completion writes -/

theorem text_zero_getElem (i : Fin 36) : Text.zero[i] = 0 := by simp [Text.zero]

/-- The failure outputs of rule R163 are legal for every class code but NONE. -/
theorem legalResults_emptyOutputs {cls kind : BitVec 3} (hcls : cls.toNat ≤ 4) (hne : cls ≠ 0)
    (hkind : kind.toNat ≤ 4) : legalResults (emptyOutputs cls kind) :=
  ⟨hcls, iff_of_false hne (by decide : (1 : BitVec 1) ≠ 0), hkind, .inl rfl,
    fun i _ => text_zero_getElem i, fun _ => ⟨rfl, rfl, rfl⟩⟩

/-- A return is legal when its length is a listed one and its text is 0x00 past it (rules R33, R34). -/
theorem legalResults_successResults {kind : BitVec 3} {olen : BitVec 6} {t : Text} (id : Ident)
    (hkind : kind.toNat ≤ 4) (holen : olen = 0 ∨ olen = 26 ∨ olen = 36)
    (hpad : ∀ i : Fin 36, olen.toNat ≤ i.val → t[i] = 0) :
    legalResults (successResults kind olen t id) :=
  ⟨Nat.zero_le 4, iff_of_true rfl rfl, hkind, holen, hpad,
    fun herr => absurd herr (by decide : (0 : BitVec 1) ≠ 1)⟩

/-- A return without a text. -/
theorem legalResults_noText {kind : BitVec 3} (id : Ident) (hkind : kind.toNat ≤ 4) :
    legalResults (successResults kind 0 Text.zero id) :=
  legalResults_successResults id hkind (.inl rfl) fun i _ => text_zero_getElem i

/-- A return of a ULID text. -/
theorem legalResults_ulidText {kind : BitVec 3} (u : UlidText) (id : Ident) (hkind : kind.toNat ≤ 4) :
    legalResults (successResults kind 26 (padText u) id) :=
  legalResults_successResults id hkind (.inr (.inl rfl)) (padText_getElem_ge u)

/-- A return of a UUID text fills the whole buffer, so nothing stands past it. -/
theorem legalResults_uuidText {kind : BitVec 3} (t : Text) (id : Ident) (hkind : kind.toNat ≤ 4) :
    legalResults (successResults kind 36 t id) :=
  legalResults_successResults id hkind (.inr (.inr rfl)) fun i hi => absurd i.isLt (Nat.not_lt.2 hi)

theorem legalResults_resetResults : legalResults resetResults :=
  legalResults_noText (kind := kindNone) Ident.zero (Nat.zero_le 4)

/-! ### What each operation returns -/

/-- Legal result registers with this code in `KIND`. -/
def legalWithKind (kind : BitVec 3) (r : Results) : Prop := legalResults r ∧ r.kind = kind

theorem ulidDecodeOp_legal {n : BitVec 8} {t : Text} {r : Results} (h : ulidDecodeOp n t = .ok r) :
    legalWithKind kindNone r := by
  unfold ulidDecodeOp at h
  split at h <;> cases h
  exact ⟨legalResults_noText _ (Nat.zero_le 4), rfl⟩

theorem uuidDecodeOp_legal {n : BitVec 8} {t : Text} {r : Results} (h : uuidDecodeOp n t = .ok r) :
    legalWithKind kindNone r := by
  unfold uuidDecodeOp at h
  split at h <;> cases h
  exact ⟨legalResults_noText _ (Nat.zero_le 4), rfl⟩

theorem convertToUuid_legal {n : BitVec 8} {t : Text} {r : Results} (h : convertToUuid n t = .ok r) :
    legalWithKind Kind.ulid.code r := by
  unfold convertToUuid at h
  split at h <;> cases h
  exact ⟨legalResults_uuidText _ _ (kind_code_le .ulid), rfl⟩

theorem convertToUlid_legal {v : Kind} {n : BitVec 8} {t : Text} {r : Results}
    (h : convertToUlid v n t = .ok r) : legalWithKind v.code r := by
  unfold convertToUlid at h
  split at h <;> cases h
  exact ⟨legalResults_ulidText _ _ (kind_code_le v), rfl⟩

theorem classifyOp_legal {n : BitVec 8} {t : Text} {r : Results} (h : classifyOp n t = .ok r) :
    legalWithKind (classifyFn n t).code r := by
  unfold classifyOp at h
  cases hv : classifyFn n t <;> rw [hv] at h <;> cases h
  all_goals exact ⟨legalResults_noText _ (kind_code_le _), rfl⟩

theorem convertOp_legal {n : BitVec 8} {t : Text} {r : Results} (h : convertOp n t = .ok r) :
    legalWithKind (classifyFn n t).code r := by
  unfold convertOp at h
  cases hv : classifyFn n t <;> rw [hv] at h
  case unrecognized => cases h
  case ulid => exact convertToUuid_legal h
  case uuid => exact convertToUlid_legal h
  case guid => exact convertToUlid_legal h

/-- A completion is legal, and `KIND` holds `kind`, if that is so of what the operation returns. -/
theorem finish_legal {kind : BitVec 3} {r : Except ErrClass Results} (s : State) (hkind : kind.toNat ≤ 4)
    (hok : ∀ res, r = .ok res → legalWithKind kind res) : legalWithKind kind (finish kind r s).results := by
  rcases finish_cases kind r s with ⟨res, hr, e⟩ | ⟨cls, -, e⟩ <;> rw [e]
  · exact hok res hr
  · exact ⟨legalResults_emptyOutputs (errClass_code_le cls) (errClass_code_ne_zero cls) hkind, rfl⟩

/-- The code an operation leaves in `KIND`: the verdict if it classifies, NONE if not (rules R29, R163). -/
def verdictCode (i : Instr) (c : Captured) : BitVec 3 :=
  match i with
  | .convert | .classify => (classifyFn c.lenQ c.textQ).code
  | .ulidDecode | .ulidEncode | .uuidDecode | .uuidEncode => kindNone

theorem verdictCode_eq_zero_iff (i : Instr) (c : Captured) :
    verdictCode i c = 0 ↔ i ≠ .convert ∧ i ≠ .classify := by
  cases i
  case convert => exact iff_of_false (kind_code_ne_zero _) fun h => h.1 rfl
  case classify => exact iff_of_false (kind_code_ne_zero _) fun h => h.2 rfl
  all_goals exact iff_of_true rfl ⟨nofun, nofun⟩

/-- Every operation's results are legal, with the verdict in `KIND`. -/
theorem resultsOf_legal (i : Instr) (c : Captured) : legalWithKind (verdictCode i c) (resultsOf i c) := by
  have hnone : kindNone.toNat ≤ 4 := Nat.zero_le 4
  cases i with
  | convert => exact finish_legal _ (kind_code_le _) fun _ => convertOp_legal
  | classify => exact finish_legal _ (kind_code_le _) fun _ => classifyOp_legal
  | ulidDecode => exact finish_legal _ hnone fun _ => ulidDecodeOp_legal
  | ulidEncode => exact ⟨legalResults_ulidText _ _ hnone, rfl⟩
  | uuidDecode => exact finish_legal _ hnone fun _ => uuidDecodeOp_legal
  | uuidEncode => exact ⟨legalResults_uuidText _ _ hnone, rfl⟩

/-! ### What `exec` writes -/

/-- Settles O39: `exec` writes `resultsOf`, which is legal with the verdict's code in `KIND`. -/
theorem completionsWriteLegalResults : Obligations.CompletionsWriteLegalResults := by
  unfold Obligations.CompletionsWriteLegalResults
  intro i s
  obtain ⟨hlegal, hkind⟩ := resultsOf_legal i s.captured
  exact ⟨_, exec_eq i s, hlegal, by rw [outcomeState_results, hkind, verdictCode_eq_zero_iff]⟩

/-- Settles O38: `exec` gives an `outcomeState`, which touches the results, `DONE` and `FSM` only. -/
theorem completionWritesOnlyTheResults : Obligations.CompletionWritesOnlyTheResults := by
  unfold Obligations.CompletionWritesOnlyTheResults
  intro i s
  exact ⟨_, exec_eq i s, rfl, rfl, rfl, rfl, rfl, rfl, rfl, rfl⟩

end Sys2Proof.Machine
end

