-- ==== Sys2Proof/Proofs/ClockEdges.lean ====
section
/-! PROOFS. One step rule per kind of clock edge (rule R167), and what they say of `FSM`, `DONE` and the captured
registers (rules R24, R26, R30, R31, R37, R38, R177). -/

namespace Sys2Proof.Machine

/-! ### What a completion edge writes -/

/-- The result registers a completion edge writes, as a function of the captured registers (rules R32, R150). -/
def completedResults (c : Captured) : Results :=
  match decode c.opQ with
  | .ok i => resultsOf i c
  | .error _ => emptyOutputs 4 0

theorem completedResults_ok {c : Captured} {i : Instr} (h : decode c.opQ = .ok i) :
    completedResults c = resultsOf i c := by
  simp only [completedResults, h]

theorem completedResults_error {c : Captured} {e : DecodeError} (h : decode c.opQ = .error e) :
    completedResults c = emptyOutputs 4 0 := by
  simp only [completedResults, h]

theorem completedResults_reserved {c : Captured} (h : c.opQ = 0b110 ∨ c.opQ = 0b111) :
    completedResults c = emptyOutputs 4 0 := by
  rcases h with h | h <;> exact completedResults_error (e := .reservedOp c.opQ) (by rw [h]; rfl)

theorem completionEdge_eq (s : State) :
    completionEdge s = .next (outcomeState s (completedResults s.captured)) := by
  rcases completionEdge_cases s with ⟨i, hop, e⟩ | ⟨_, hop, e⟩
  · rw [e, completedResults_ok hop]
  · rw [e, completedResults_error hop]

/-- Every completion edge, a reserved code's included, leaves legal result registers. -/
theorem completedResults_legal (c : Captured) : legalResults (completedResults c) := by
  cases hop : decode c.opQ with
  | ok i => rw [completedResults_ok hop]; exact (resultsOf_legal i c).1
  | error e =>
    rw [completedResults_error hop]
    exact legalResults_emptyOutputs (by decide) (by decide) (by decide)

/-! ### One step rule per kind of edge -/

theorem step_reset {s : State} (h : s.inputs.rst = 1) : step s = .next (hostMove (resetEdge s)) :=
  step_of_coreEdge (coreEdge_reset h)

theorem step_accepting {s : State} (h : s.accepting) : step s = .next (hostMove (acceptStart s)) :=
  step_of_coreEdge (coreEdge_accepting h)

theorem step_idle {s : State} (h : s.ordinary) (hidle : s.fsm = .idle) (hstart : s.inputs.start ≠ 1) :
    step s = .next (hostMove s) :=
  step_of_coreEdge (coreEdge_idle h hidle hstart)

theorem step_busy {s : State} (h : s.ordinary) (hbusy : s.fsm = .busy) (hleft : 1 < s.cyclesLeft) :
    step s = .next (hostMove (busyEdge s)) :=
  step_of_coreEdge (coreEdge_busy h hbusy hleft)

theorem step_completing {s : State} (h : s.completing) :
    step s = .next (hostMove (outcomeState s (completedResults s.captured))) :=
  step_of_coreEdge ((coreEdge_completing h).trans (completionEdge_eq s))

/-- A completion edge whose captured code is an operation's. -/
theorem step_completing_op {s : State} {i : Instr} (h : s.completing) (hop : decode s.captured.opQ = .ok i) :
    step s = .next (hostMove (outcomeState s (resultsOf i s.captured))) := by
  rw [step_completing h, completedResults_ok hop]

theorem exists_step (s : State) : ∃ t, step s = .next t := by
  rcases coreEdge_cases s with ⟨-, e⟩ | ⟨-, -, e⟩ | ⟨-, e⟩ | ⟨-, -, -, e⟩ | ⟨-, -, -, e⟩ | ⟨-, e⟩
  case inr.inr.inr.inr.inr => exact ⟨_, step_of_coreEdge (e.trans (completionEdge_eq s))⟩
  all_goals exact ⟨_, step_of_coreEdge e⟩

theorem step_unique {s t u : State} (ht : step s = .next t) (hu : step s = .next u) : t = u :=
  Host.Outcome.next.inj (ht.symm.trans hu)

/-! ### What a step does to `FSM` and `DONE` -/

section
variable {s t : State} (ht : step s = .next t)
include ht

theorem fsm_done_of_reset (hrst : s.inputs.rst = 1) : t.fsm = .idle ∧ t.done = 0 := by
  rw [step_unique ht (step_reset hrst)]; exact ⟨rfl, rfl⟩

theorem fsm_done_of_accepting (hacc : s.accepting) : t.fsm = .busy ∧ t.done = 0 := by
  rw [step_unique ht (step_accepting hacc)]; exact ⟨rfl, rfl⟩

theorem fsm_done_of_completing (hcomp : s.completing) : t.fsm = .idle ∧ t.done = 1 := by
  rw [step_unique ht (step_completing hcomp)]; exact ⟨rfl, rfl⟩

/-- Without a reset, an accepted start or a completion, a step moves neither `FSM` nor `DONE` (rules R24, R26). -/
theorem fsm_done_of_other (hsaw : s.sawReset = true) (hrst : s.inputs.rst ≠ 1) (hacc : ¬ s.accepting)
    (hcomp : ¬ s.completing) : t.fsm = s.fsm ∧ t.done = s.done := by
  rcases coreEdge_cases s with ⟨h, -⟩ | ⟨-, h, -⟩ | ⟨h, -⟩ | ⟨-, -, -, e⟩ | ⟨-, -, -, e⟩ | ⟨h, -⟩
  · exact absurd h hrst
  · rw [hsaw] at h; cases h
  · exact absurd h hacc
  · rw [step_unique ht (step_of_coreEdge e)]; exact ⟨rfl, rfl⟩
  · rw [step_unique ht (step_of_coreEdge e)]; exact ⟨rfl, rfl⟩
  · exact absurd h hcomp

end

/-! ### The statements -/

/-- Settles O12, event by event. -/
theorem fsmMovesByThreeEventsOnly : Obligations.FsmMovesByThreeEventsOnly := by
  unfold Obligations.FsmMovesByThreeEventsOnly
  intro s hsaw
  obtain ⟨t, ht⟩ := exists_step s
  exact ⟨t, ht, fun hrst => (fsm_done_of_reset ht hrst).1, fun hacc => (fsm_done_of_accepting ht hacc).1,
    fun hcomp => (fsm_done_of_completing ht hcomp).1,
    fun hrst hacc hcomp => (fsm_done_of_other ht hsaw hrst hacc hcomp).1⟩

/-- Settles O13, event by event. -/
theorem doneFollowsItsFourEvents : Obligations.DoneFollowsItsFourEvents := by
  unfold Obligations.DoneFollowsItsFourEvents
  intro s hsaw
  obtain ⟨t, ht⟩ := exists_step s
  exact ⟨t, ht, fun hrst => (fsm_done_of_reset ht hrst).2, fun hacc => (fsm_done_of_accepting ht hacc).2,
    fun hcomp => (fsm_done_of_completing ht hcomp).2,
    fun hrst hacc hcomp => (fsm_done_of_other ht hsaw hrst hacc hcomp).2⟩

/-- Settles O9, by the rule of an accepted start. -/
theorem acceptedStartCapturesTheInputs : Obligations.AcceptedStartCapturesTheInputs := by
  unfold Obligations.AcceptedStartCapturesTheInputs
  intro s hacc
  exact ⟨_, step_accepting hacc, rfl, rfl, rfl, rfl, hacc.1.1⟩

/-- Settles O11, by the rule of an idle edge: CORE does nothing and the host moves its own ports and script. -/
theorem idleEdgeHoldsEveryRegister : Obligations.IdleEdgeHoldsEveryRegister := by
  unfold Obligations.IdleEdgeHoldsEveryRegister
  intro s hord hidle hstart
  have hnostart : s.inputs.start ≠ 1 := by rw [hstart]; decide
  exact ⟨_, step_idle hord hidle hnostart, hidle, rfl, rfl, rfl, rfl, rfl, rfl⟩

/-- Settles O10: from either state the edge is the same completion or the same busy edge, because neither rule
looks at a port other than `RST`. -/
theorem busyIgnoresTheInputPorts : Obligations.BusyIgnoresTheInputPorts := by
  unfold Obligations.BusyIgnoresTheInputPorts
  intro s p hord hbusy hp
  have hord' : State.ordinary { s with inputs := p } := ⟨hord.1, hp⟩
  by_cases hleft : s.cyclesLeft ≤ 1
  · exact ⟨_, _, step_completing ⟨hord, hbusy, hleft⟩, step_completing ⟨hord', hbusy, hleft⟩,
      rfl, rfl, rfl, rfl, fun _ => rfl⟩
  · have hmore : 1 < s.cyclesLeft := Nat.lt_of_not_le hleft
    exact ⟨_, _, step_busy hord hbusy hmore, step_busy hord' hbusy hmore,
      rfl, rfl, rfl, rfl, fun _ => rfl⟩

/-- Settles O14: the completion edge of operation i is the outcome `exec i` gives, and then the host's move. -/
theorem stepRunsTheCapturedOperation : Obligations.StepRunsTheCapturedOperation := by
  unfold Obligations.StepRunsTheCapturedOperation
  intro s i hcomp hop
  exact ⟨_, exec_eq i s, step_completing_op hcomp hop⟩

/-- A word that gives an operation has that operation's code in its low three bits (rules R70, R71). -/
theorem decode_of_decodeTableWord {nbits w : Nat} {i : Instr} (h : decodeTableWord nbits w = some i) :
    decode (BitVec.ofNat 3 (w % 2 ^ nbits)) = .ok i := by
  unfold decodeTableWord at h
  cases hop : decode (BitVec.ofNat 3 (w % 2 ^ nbits)) <;> rw [hop] at h <;> cases h
  rfl

/-- A placed word's completion is due on the very next edge (log 12). -/
theorem withFetchWord_completing (s : State) (nbits w : Nat) : (s.withFetchWord nbits w).completing :=
  ⟨⟨rfl, rfl⟩, rfl, le_rfl⟩

/-- Settles O15: the placed state is completing, with the word's operation in `OP_Q`. -/
theorem stepRunsAPlacedWord : Obligations.StepRunsAPlacedWord := by
  unfold Obligations.StepRunsAPlacedWord
  intro s nbits w i hword
  exact ⟨_, exec_eq i _,
    step_completing_op (withFetchWord_completing s nbits w) (decode_of_decodeTableWord hword)⟩

end Sys2Proof.Machine
end

