-- ==== Sys2Proof/Proofs/Consistency.lean ====
section
/-! PROOFS. The register invariant `State.consistent`: each thing a clock edge can do keeps it (rules R26, R38,
R185). -/

namespace Sys2Proof.Machine

/-- Before the first reset the invariant asks nothing (rule R182). -/
theorem consistent_of_unreset {s : State} (hunreset : s.sawReset = false) : s.consistent := by
  intro hreset
  rw [hunreset] at hreset
  cases hreset

/-- While BUSY the invariant asks for `DONE = 0` only. -/
theorem consistent_of_busy {s : State} (hbusy : s.fsm = .busy) (hdone : s.done = 0) : s.consistent := by
  have hnotIdle : s.fsm ≠ .idle := by rw [hbusy]; decide
  exact fun _ => ⟨fun _ => hdone, fun h => absurd h hnotIdle, fun h => absurd h hnotIdle⟩

/-- While IDLE the invariant asks for legal results, and for the reset values with `DONE = 0`. -/
theorem consistent_of_idle {s : State} (hidle : s.fsm = .idle) (hlegal : legalResults s.results)
    (hundone : s.done = 0 → s.results = resetResults) : s.consistent := by
  have hnotBusy : s.fsm ≠ .busy := by rw [hidle]; decide
  exact fun _ => ⟨fun h => absurd h hnotBusy, fun _ => hlegal, fun _ => hundone⟩

theorem consistent_resetEdge (s : State) : (resetEdge s).consistent :=
  consistent_of_idle rfl legalResults_resetResults fun _ => rfl

theorem consistent_acceptStart (s : State) : (acceptStart s).consistent := consistent_of_busy rfl rfl

/-- A busy edge without a completion moves neither `FSM` nor `DONE`. -/
theorem consistent_busyEdge {s : State} (hs : s.consistent) (hsaw : s.sawReset = true) (hbusy : s.fsm = .busy) :
    (busyEdge s).consistent := by
  obtain ⟨hdone, -, -⟩ := hs hsaw
  exact consistent_of_busy hbusy (hdone hbusy)

/-- A completion sets `DONE`, so only the legality of what it writes is asked for. -/
theorem consistent_outcomeState (s : State) {r : Results} (hr : legalResults r) : (outcomeState s r).consistent :=
  consistent_of_idle rfl hr fun hdone => absurd hdone (by decide : (1 : BitVec 1) ≠ 0)

theorem coreEdge_keeps_consistent {s t : State} (hs : s.consistent) (h : coreEdge s = .next t) : t.consistent := by
  rcases coreEdge_cases s with ⟨-, e⟩ | ⟨-, hunreset, e⟩ | ⟨-, e⟩ | ⟨-, -, -, e⟩ | ⟨hord, hbusy, -, e⟩ | ⟨-, e⟩
  case inr.inr.inr.inr.inr =>
    rw [e, completionEdge_eq] at h; cases h
    exact consistent_outcomeState s (completedResults_legal s.captured)
  all_goals rw [e] at h; cases h
  · exact consistent_resetEdge s
  · exact consistent_of_unreset hunreset
  · exact consistent_acceptStart s
  · exact hs
  · exact consistent_busyEdge hs hord.1 hbusy

/-- The host's move touches none of the registers the invariant speaks of (rules R59, R188). -/
theorem hostMove_consistent {s : State} (hs : s.consistent) : (hostMove s).consistent := hs

/-- Settles O45: CORE's edge keeps the invariant in each of its cases, and the host's move leaves it alone. -/
theorem everyStepKeepsConsistency : Obligations.EveryStepKeepsConsistency := by
  unfold Obligations.EveryStepKeepsConsistency
  intro s u hs hstep
  obtain ⟨t, hedge, rfl⟩ := coreEdge_of_step hstep
  exact hostMove_consistent (coreEdge_keeps_consistent hs hedge)

/-- Settles O44: the reset state is IDLE with the reset values, which are legal. -/
theorem consistentAtReset : Obligations.ConsistentAtReset := by
  unfold Obligations.ConsistentAtReset
  exact consistent_of_idle rfl legalResults_resetResults fun _ => rfl

/-- Settles O46: the reset state is IDLE, so no completion is outstanding. -/
theorem timelyAtReset : Obligations.TimelyAtReset := by
  unfold Obligations.TimelyAtReset
  exact timely_of_idle rfl

end Sys2Proof.Machine
end

