-- ==== Sys2Proof/Proofs/LatencyRun.lean ====
section
/-! PROOFS. The run from an accepted start to its completion, `LATENCY` edges later (rules R9, R32). -/

namespace Sys2Proof.Machine

/-- Between an accepted start of `c` and its completion: BUSY with `DONE = 0`, no reset in sight, and `k` edges
left, the completion's own included (log 3). -/
structure State.counting (c : Captured) (k : Nat) (s : State) : Prop where
  sawReset : s.sawReset = true
  noReset : s.noResetAhead
  busy : s.fsm = .busy
  undone : s.done = 0
  captured : s.captured = c
  left : s.cyclesLeft = k

theorem counting_ordinary {c : Captured} {k : Nat} {s : State} (h : s.counting c k) : s.ordinary :=
  ⟨h.sawReset, h.noReset.1⟩

/-- An accepted start begins the count at the whole `LATENCY`. -/
theorem step_accepting_counting {s : State} (hacc : s.accepting) (hno : s.noResetAhead) :
    ∃ t, step s = .next t
      ∧ t.counting (captureInputs s.inputs) (Config.latency (captureInputs s.inputs)) := by
  refine ⟨_, step_accepting hacc, ?_⟩
  exact ⟨hacc.1.1, noResetAhead_hostMove (t := acceptStart s) hno, rfl, rfl, rfl, rfl⟩

/-- An edge before the last one counts one down. -/
theorem step_counting {c : Captured} {k : Nat} {s : State} (h : s.counting c (k + 1)) (hk : 1 ≤ k) :
    ∃ t, step s = .next t ∧ t.counting c k := by
  have hleft : 1 < s.cyclesLeft := by rw [h.left]; omega
  refine ⟨_, step_busy (counting_ordinary h) h.busy hleft, ?_⟩
  exact ⟨h.sawReset, noResetAhead_hostMove (t := busyEdge s) h.noReset, h.busy, h.undone, h.captured,
    congrArg (· - 1) h.left⟩

/-- The last edge completes with the results of what was captured. -/
theorem step_counting_one {c : Captured} {s : State} (h : s.counting c 1) :
    ∃ t, step s = .next t ∧ t.done = 1 ∧ t.fsm = .idle ∧ t.captured = c ∧ t.results = completedResults c := by
  have hcomp : s.completing := ⟨counting_ordinary h, h.busy, h.left.le⟩
  exact ⟨_, step_completing hcomp, rfl, rfl, h.captured, congrArg completedResults h.captured⟩

/-- `n` edges short of the completion count `n` down. -/
theorem run_counting {c : Captured} {k : Nat} (hk : 1 ≤ k) (n : Nat) {s : State} (h : s.counting c (k + n)) :
    ∃ t : State, Sys2Proof.core.run n s = .next t ∧ t.counting c k := by
  induction n generalizing s with
  | zero => exact ⟨s, rfl, h⟩
  | succ n ih =>
    obtain ⟨u, hstep, hu⟩ := step_counting (k := k + n) h (by omega)
    obtain ⟨t, hrun, ht⟩ := ih hu
    exact ⟨t, (run_succ n hstep).trans hrun, ht⟩

/-- All the edges left reach the completion. -/
theorem run_counting_completes {c : Captured} (n : Nat) {s : State} (h : s.counting c (n + 1)) :
    ∃ t : State, Sys2Proof.core.run (n + 1) s = .next t
      ∧ t.done = 1 ∧ t.fsm = .idle ∧ t.captured = c ∧ t.results = completedResults c := by
  induction n generalizing s with
  | zero =>
    obtain ⟨t, hstep, ht⟩ := step_counting_one h
    exact ⟨t, run_succ 0 hstep, ht⟩
  | succ n ih =>
    obtain ⟨u, hstep, hu⟩ := step_counting h (by omega)
    obtain ⟨t, hrun, ht⟩ := ih hu
    exact ⟨t, (run_succ (n + 1) hstep).trans hrun, ht⟩

/-- Settles O18: the accepted start begins a count of `LATENCY`; short of its end CORE is BUSY, at its end it
completes. -/
theorem acceptedStartCompletesAfterLatency : Obligations.AcceptedStartCompletesAfterLatency := by
  unfold Obligations.AcceptedStartCompletesAfterLatency
  intro s hacc hno c
  obtain ⟨u, hstep, hu⟩ := step_accepting_counting hacc hno
  change u.counting c (Config.latency c) at hu
  have hpos : 1 ≤ Config.latency c := one_le_latency c
  refine ⟨hpos, latency_le_maxLatency c, fun n hn hle => ?_, ?_⟩
  · obtain ⟨m, rfl⟩ := Nat.exists_eq_add_of_le' hn
    have hcount : u.counting c (Config.latency c - m + m) := by rwa [Nat.sub_add_cancel (by omega)]
    obtain ⟨t, hrun, ht⟩ := run_counting (by omega) m hcount
    exact ⟨t, (run_succ m hstep).trans hrun, ht.busy, ht.undone⟩
  · obtain ⟨m, hm⟩ := Nat.exists_eq_add_of_le' hpos
    rw [hm] at hu ⊢
    obtain ⟨t, hrun, hdone, hidle, hcap, hres⟩ := run_counting_completes m hu
    refine ⟨t, (run_succ (m + 1) hstep).trans hrun, hdone, hidle, hcap, fun i hop => ?_, fun hop => ?_⟩
    · exact ⟨_, exec_eq i _, hres.trans (completedResults_ok hop)⟩
    · exact hres.trans (completedResults_reserved hop)

end Sys2Proof.Machine
end

