-- ==== Sys2Proof/Proofs/OutputPorts.lean ====
section
/-! PROOFS. The output ports and the STATUS view (rules R23, R25, R26, R36, R38, R39). -/

namespace Sys2Proof.Machine

/-! ### The packing of STATUS -/

/-- Putting bits on the right is a multiplication and an addition. -/
theorem toNat_append_eq_add {m n : Nat} (x : BitVec m) (y : BitVec n) :
    (x ++ y).toNat = x.toNat * 2 ^ n + y.toNat := by
  rw [BitVec.toNat_append, ← Nat.shiftLeft_add_eq_or_of_lt y.isLt, Nat.shiftLeft_eq]

theorem statusResultBits_toNat (r : Results) :
    (statusResultBits r).toNat = r.err.toNat + 2 * r.errClass.toNat + 16 * r.kind.toNat + 128 * r.outLen.toNat := by
  rw [statusResultBits, toNat_append_eq_add, toNat_append_eq_add, toNat_append_eq_add]
  omega

/-- Bits 14:2 of the k-th read of STATUS. -/
def statusMiddleBits (k : Nat) (s : State) : BitVec 13 :=
  if resultsSpecified s then statusResultBits s.results else Config.freeStatus s.draws k

theorem statusMiddleBits_specified {s : State} (h : resultsSpecified s = true) (k : Nat) :
    statusMiddleBits k s = statusResultBits s.results :=
  if_pos h

theorem readStatus_toNat (k : Nat) (s : State) :
    (readStatus k s).toNat = (readBusy s).toNat + 2 * s.done.toNat + 4 * (statusMiddleBits k s).toNat := by
  change (0#1 ++ statusMiddleBits k s ++ s.done ++ readBusy s).toNat = _
  rw [toNat_append_eq_add, toNat_append_eq_add, toNat_append_eq_add]
  simp only [BitVec.toNat_ofNat]
  omega

/-- Settles O19: STATUS is `BUSY + 2 DONE + 4 bits`, and the thirteen bits are the result registers' where these
are specified; none of it is read from a port. -/
theorem statusPacksTheRegisters : Obligations.StatusPacksTheRegisters := by
  unfold Obligations.StatusPacksTheRegisters
  intro s k
  have hstatus := readStatus_toNat k s
  have hbusy := (readBusy s).isLt
  have hdone := s.done.isLt
  have hbits := (statusMiddleBits k s).isLt
  refine ⟨fun hspec => ?_, by omega, by omega, fun p => rfl⟩
  rw [hstatus, statusMiddleBits_specified hspec, statusResultBits_toNat]
  omega

/-! ### The other output ports -/

theorem readBusy_eq_one_iff (s : State) : readBusy s = 1 ↔ s.fsm = .busy := by
  unfold readBusy
  cases s.fsm <;> decide

/-- In a consistent state `DONE = 1` means IDLE (rule R26). -/
theorem idle_of_consistent_done {s : State} (hs : s.consistent) (hsaw : s.sawReset = true) (hdone : s.done = 1) :
    s.fsm = .idle := by
  obtain ⟨hbusyUndone, -, -⟩ := hs hsaw
  cases hf : s.fsm with
  | idle => rfl
  | busy => exact absurd (hdone.symm.trans (hbusyUndone hf)) (by decide)

/-- Settles O48: the six result ports read `readResults`, which is the registers where they are specified. -/
theorem outputPortsShowTheirRegisters : Obligations.OutputPortsShowTheirRegisters := by
  unfold Obligations.OutputPortsShowTheirRegisters
  intro s k
  refine ⟨readBusy_eq_one_iff s, rfl, fun hsaw hwhen => ?_⟩
  have hidle : s.fsm = .idle := hwhen.elim id fun ⟨hs, hdone⟩ => idle_of_consistent_done hs hsaw hdone
  have hread : readResults k s = s.results :=
    readResults_specified ((resultsSpecified_iff s).2 ⟨hsaw, hidle⟩) k
  exact ⟨congrArg Results.err hread, congrArg Results.errClass hread, congrArg Results.kind hread,
    congrArg Results.outLen hread, congrArg Results.outText hread, congrArg Results.outId hread⟩

/-- STATUS of the reset values is 0: every field that it packs is 0 (rules R36, R42). -/
theorem readStatus_reset (k : Nat) : readStatus k State.reset = 0x0000 := by
  apply BitVec.eq_of_toNat_eq
  rw [readStatus_toNat, statusMiddleBits_specified rfl]
  rfl

/-- Settles O5: the registers are those of `State.reset`, and STATUS packs them. -/
theorem resetStateHoldsTheResetValues : Obligations.ResetStateHoldsTheResetValues := by
  unfold Obligations.ResetStateHoldsTheResetValues
  exact ⟨rfl, rfl, rfl, rfl, readStatus_reset⟩

end Sys2Proof.Machine
end

