-- ==== Sys2Proof/Proofs/OperandReads.lean ====
section
/-! PROOFS. What an operation reads of the captured registers: the text bytes below `LEN_Q`, or `ID_Q`, or nothing
(rules R41, R53), and the texts longer than the buffer (rule R52). -/

namespace Sys2Proof.Machine

/-! ### Texts that agree below a length -/

/-- Two text buffers hold the same bytes below `n`. -/
def agreeBelow (n : Nat) (t t' : Text) : Prop := ∀ j : Fin 36, j.val < n → t[j] = t'[j]

theorem agreeBelow.slice_eq {n : Nat} {t t' : Text} (h : agreeBelow n t t') {a k : Nat} (hin : a + k ≤ n)
    (hbuf : a + k ≤ 36) : slice t a k = slice t' a k := by
  rw [slice_eq_ofFn t a k hbuf, slice_eq_ofFn t' a k hbuf, List.ofFn_inj]
  funext i
  have hi := i.isLt
  exact h ⟨a + i.val, by omega⟩ (show a + i.val < n by omega)

theorem agreeBelow.eq {t t' : Text} (h : agreeBelow 36 t t') : t = t' :=
  Vector.ext fun j hj => h ⟨j, hj⟩ hj

/-! ### The three functions that read text -/

/-- The two decoders and the classifier, the only readers of text, answer the same for both operands. -/
def sameTextAnswers (n n' : BitVec 8) (t t' : Text) : Prop :=
  ulidDecodeFn n t = ulidDecodeFn n' t' ∧ uuidDecodeFn n t = uuidDecodeFn n' t' ∧ classifyFn n t = classifyFn n' t'

section
variable {n : BitVec 8} {t t' : Text} (h : agreeBelow n.toNat t t')
include h

theorem ulidDecodeFn_eq_of_agreeBelow : ulidDecodeFn n t = ulidDecodeFn n t' := by
  by_cases hn : n = 26
  · subst hn
    rw [ulidDecodeFn, ulidDecodeFn, h.slice_eq (by decide) (by decide)]
  · rw [ulidDecodeFn_length t hn, ulidDecodeFn_length t' hn]

theorem uuidDecodeFn_eq_of_agreeBelow : uuidDecodeFn n t = uuidDecodeFn n t' := by
  by_cases h36 : n = 36
  · subst h36
    rw [agreeBelow.eq h]
  by_cases h32 : n = 32
  · subst h32
    simp only [uuidDecodeFn, if_neg h36, h.slice_eq (a := 0) (k := 32) (by decide) (by decide)]
  · rw [uuidDecodeFn_length t h32 h36, uuidDecodeFn_length t' h32 h36]

/-- Each test of rule R140 fixes the length first, and reads only bytes below it. -/
theorem classifyFn_eq_of_agreeBelow : classifyFn n t = classifyFn n t' := by
  refine if_congr (and_congr_right fun h26 => ?_) rfl
    (if_congr (and_congr_right fun h36 => ?_) rfl (if_congr (and_congr_right fun h32 => ?_) rfl rfl))
  · subst h26
    rw [h.slice_eq (by decide) (by decide)]
  · subst h36
    rw [agreeBelow.eq h]
  · subst h32
    rw [h.slice_eq (by decide) (by decide)]

theorem sameTextAnswers_of_agreeBelow : sameTextAnswers n n t t' :=
  ⟨ulidDecodeFn_eq_of_agreeBelow h, uuidDecodeFn_eq_of_agreeBelow h, classifyFn_eq_of_agreeBelow h⟩

end

/-- A text whose length no form has (rule R140). -/
theorem classifyFn_length {n : BitVec 8} (t : Text) (h26 : n ≠ 26) (h32 : n ≠ 32) (h36 : n ≠ 36) :
    classifyFn n t = .unrecognized :=
  classifyFn_unrecognized (fun hs => h26 hs.1) (fun hs => h36 hs.1) (fun hs => h32 hs.1)

theorem ne_form_lengths_of_long {n : BitVec 8} (hn : 36 < n.toNat) : n ≠ 26 ∧ n ≠ 32 ∧ n ≠ 36 := by
  bv_omega

/-- No form is longer than 36, so each reader answers without looking at a byte (rules R79, R104, R124, R140). -/
theorem sameTextAnswers_of_long {n n' : BitVec 8} (t t' : Text) (hn : 36 < n.toNat) (hn' : 36 < n'.toNat) :
    sameTextAnswers n n' t t' := by
  obtain ⟨h26, h32, h36⟩ := ne_form_lengths_of_long hn
  obtain ⟨h26', h32', h36'⟩ := ne_form_lengths_of_long hn'
  refine ⟨?_, ?_, ?_⟩
  · rw [ulidDecodeFn_length t h26, ulidDecodeFn_length t' h26']
  · rw [uuidDecodeFn_length t h32 h36, uuidDecodeFn_length t' h32' h36']
  · rw [classifyFn_length t h26 h32 h36, classifyFn_length t' h26' h32' h36']

/-! ### The results of an operation -/

/-- A text operation's results come from the three readers' answers alone. -/
theorem resultsOf_text_congr {i : Instr} {c c' : Captured} (hop : i.operand = .text)
    (h : sameTextAnswers c.lenQ c'.lenQ c.textQ c'.textQ) : resultsOf i c = resultsOf i c' := by
  obtain ⟨hulid, huuid, hkind⟩ := h
  cases i with
  | convert => simp only [resultsOf, convertOp, convertToUuid, convertToUlid, hulid, huuid, hkind]
  | classify => simp only [resultsOf, classifyOp, hkind]
  | ulidDecode => simp only [resultsOf, ulidDecodeOp, hulid]
  | uuidDecode => simp only [resultsOf, uuidDecodeOp, huuid]
  | ulidEncode => cases hop
  | uuidEncode => cases hop

theorem resultsOf_identifier_congr {i : Instr} {c c' : Captured} (hop : i.operand = .identifier)
    (h : c.idQ = c'.idQ) : resultsOf i c = resultsOf i c' := by
  cases i with
  | ulidEncode => simp only [resultsOf, h]
  | uuidEncode => simp only [resultsOf, h]
  | convert => cases hop
  | classify => cases hop
  | ulidDecode => cases hop
  | uuidDecode => cases hop

theorem exec_results_eq {i : Instr} {s s' : State} (h : resultsOf i s.captured = resultsOf i s'.captured) :
    ∃ t t', exec i s = .next t ∧ exec i s' = .next t' ∧ t.results = t'.results :=
  ⟨_, _, exec_eq i s, exec_eq i s', h⟩

/-! ### The statements -/

/-- Settles O40: the readers of text look below `LEN_Q` only, the encoders at `ID_Q` only, and a reserved code's
results are constant. -/
theorem resultsDependOnlyOnTheOperand : Obligations.ResultsDependOnlyOnTheOperand := by
  unfold Obligations.ResultsDependOnlyOnTheOperand
  refine ⟨fun i s s' hop hlen hbytes => ?_, fun i s s' hop hid => ?_, fun s s' => ?_⟩
  · have hanswers : sameTextAnswers s.captured.lenQ s'.captured.lenQ s.captured.textQ s'.captured.textQ :=
      hlen ▸ sameTextAnswers_of_agreeBelow hbytes
    exact exec_results_eq (resultsOf_text_congr hop hanswers)
  · exact exec_results_eq (resultsOf_identifier_congr hop hid)
  · exact ⟨_, _, execReserved_eq s, execReserved_eq s', rfl⟩

theorem lengthPort_toNat (chars : List Byte) : (lengthPort chars).toNat = min chars.length 255 := by
  rw [lengthPort, BitVec.toNat_ofNat]
  omega

theorem textPort_getElem (chars : List Byte) (left : Text) (i : Fin 36) (h : i.val < chars.length) :
    (textPort chars left)[i] = chars[i.val] := by
  rw [textPort, Fin.getElem_fin, Vector.getElem_ofFn, dif_pos h]

/-- Settles O41: the ports hold the length cut at 255 and the text's own bytes, and above 36 the readers of text
have one answer each. -/
theorem longTextsAreAllTheSame : Obligations.LongTextsAreAllTheSame := by
  unfold Obligations.LongTextsAreAllTheSame
  refine ⟨fun chars left => ⟨lengthPort_toNat chars, textPort_getElem chars left⟩,
    fun i s s' hop hlong hlong' => ?_⟩
  exact exec_results_eq (resultsOf_text_congr hop (sameTextAnswers_of_long _ _ hlong hlong'))

end Sys2Proof.Machine
end

