-- ==== Sys2Proof/Proofs/OperationCodes.lean ====
section
/-! PROOFS. The operation codes: the decoder and the encoder are inverse, and two codes are reserved (rules R70, R71,
R73). -/

namespace Sys2Proof

theorem wf_eq_true (i : Instr) : i.wf = true := by cases i <;> rfl

theorem decode_encode (i : Instr) : decode (encode i) = .ok i := by cases i <;> rfl

/-- A row of rule R71's table is the only code of its operation. -/
theorem encode_of_decode {op : BitVec 3} {i : Instr} (h : decode op = .ok i) : encode i = op := by
  unfold decode at h
  split at h <;> cases h
  all_goals exact BitVec.eq_of_toNat_eq (Eq.symm ‹op.toNat = _›)

/-- Settles O1: the first six codes are the operations' own, and the last two are no operation's. -/
theorem opCodesDecodeAsTheTableSays : Obligations.OpCodesDecodeAsTheTableSays := by
  unfold Obligations.OpCodesDecodeAsTheTableSays
  exact ⟨decode_encode .convert, decode_encode .classify, decode_encode .ulidDecode, decode_encode .ulidEncode,
    decode_encode .uuidDecode, decode_encode .uuidEncode, rfl, rfl⟩

/-- Settles O2: `decode` is a left inverse of `encode`, and only an operation's own code decodes to it. -/
theorem opCodesDecodeAndEncodeAgree : Obligations.OpCodesDecodeAndEncodeAgree := by
  unfold Obligations.OpCodesDecodeAndEncodeAgree
  exact ⟨fun i => ⟨wf_eq_true i, decode_encode i⟩, fun _ _ => encode_of_decode⟩

end Sys2Proof
end

