-- ==== Sys2Proof/Proofs/CharacterTables.lean ====
section
/-! PROOFS. The Base32 alphabet and the hex digits: each table reads back, in either letter case, and no other byte
has a value (rules R81 to R84). -/

namespace Sys2Proof.Machine

/-! ### The Base32 alphabet -/

/-- `sym` looks at the upper-case form of a character only (rule R81). -/
theorem sym_eq_of_upperCase_eq {c d : Byte} (h : upperCase c = upperCase d) : sym c = sym d := by
  rw [sym, sym, h]

/-- The bytes with a given upper-case form: the byte itself and, for a letter, its lower-case twin. -/
theorem upperCase_eq_iff {a : Byte} (ha : a.toNat ≤ 0x5A) (c : Byte) :
    upperCase c = a ↔ c = a ∨ (0x41 ≤ a.toNat ∧ c = a + 0x20) := by
  unfold upperCase
  split <;> bv_omega

theorem alpha_toNat_le (v : BitVec 5) : (alpha v).toNat ≤ 0x5A := by
  revert v; decide

/-- The letters of the alphabet are its positions from 10 on (rule R81). -/
theorem alpha_letter_iff (v : BitVec 5) : 0x41 ≤ (alpha v).toNat ↔ 10 ≤ v.toNat := by
  revert v; decide

theorem upperCase_alpha (v : BitVec 5) : upperCase (alpha v) = alpha v :=
  (upperCase_eq_iff (alpha_toNat_le v) _).2 (.inl rfl)

theorem sym_eq_some_iff_upperCase (c : Byte) (v : BitVec 5) : sym c = some v ↔ upperCase c = alpha v := by
  refine ⟨upperCase_eq_alpha_of_sym, fun h => ?_⟩
  rw [sym_eq_of_upperCase_eq (h.trans (upperCase_alpha v).symm), sym_alpha]

theorem sym_eq_some_iff (c : Byte) (v : BitVec 5) :
    sym c = some v ↔ c = alpha v ∨ (10 ≤ v.toNat ∧ c = alpha v + 0x20) := by
  rw [sym_eq_some_iff_upperCase, upperCase_eq_iff (alpha_toNat_le v), alpha_letter_iff]

/-- Settles O3: `sym` reads the table at the upper-case form, whose letters are the values from 10 on. -/
theorem alphabetReadsBack : Obligations.AlphabetReadsBack := by
  unfold Obligations.AlphabetReadsBack
  exact ⟨fun v => ⟨rfl, sym_alpha v⟩, sym_eq_some_iff_upperCase, sym_eq_some_iff, by decide⟩

/-! ### The hex digits -/

/-- The rows of rule R83 by value, with no other byte: each range less its offset is the digit. -/
theorem hexval_eq_some_iff (c : Byte) (v : BitVec 4) :
    hexval c = some v ↔
      (0x30 ≤ c.toNat ∧ c.toNat ≤ 0x39 ∧ v.toNat = c.toNat - 0x30)
        ∨ (0x61 ≤ c.toNat ∧ c.toNat ≤ 0x66 ∧ v.toNat = c.toNat - 0x57)
        ∨ (0x41 ≤ c.toNat ∧ c.toNat ≤ 0x46 ∧ v.toNat = c.toNat - 0x37) := by
  unfold hexval
  split_ifs
  case neg => exact iff_of_false nofun (by bv_omega)
  all_goals
    rw [Option.some.injEq]
    bv_omega

/-- A letter's case does not change its hex value (rule R83). -/
theorem hexval_lowerCase (c : Byte) : hexval (lowerCase c) = hexval c := by
  refine Option.ext fun v => ?_
  rw [hexval_eq_some_iff, hexval_eq_some_iff]
  unfold lowerCase
  split
  · bv_omega
  · rfl

theorem hexval_eq_some_iff_lowerCase (c : Byte) (v : BitVec 4) : hexval c = some v ↔ lowerCase c = hexl v := by
  refine ⟨lowerCase_eq_hexl_of_hexval, fun h => ?_⟩
  rw [← hexval_lowerCase, h, hexval_hexl]

/-- Settles O4: `hexval` reads the table at the lower-case form, and its three branches are R83's rows. -/
theorem hexDigitsReadBack : Obligations.HexDigitsReadBack := by
  unfold Obligations.HexDigitsReadBack
  exact ⟨fun v => ⟨rfl, hexval_hexl v⟩, hexval_eq_some_iff_lowerCase, hexval_eq_some_iff⟩

end Sys2Proof.Machine
end

