-- ==== Sys2Proof/Proofs/ScriptLines.lean ====
section
/-! PROOFS. The lines of a transaction script on the model's host: a line that starts an operation, RESET, WAIT and
EXPECT (rules R52, R89; logs 2, 8 and 15). -/

namespace Sys2Proof.Machine

/-! ### The host's move at the head of its script -/

theorem run_two {s t u : State} (hst : step s = .next t) (htu : step t = .next u) :
    Sys2Proof.core.run 2 s = .next u :=
  (run_succ 1 hst).trans (run_succ 0 htu)

theorem hostMove_inputs_of_drive {t : State} {p : Inputs} {rest : List HostMove}
    (h : t.script = .drive p :: rest) : (hostMove t).inputs = p := by
  rw [hostMove_inputs, h, hostPorts_drive]

/-- Whatever CORE does on an edge, a host that comes to a drive then has its values on the ports. -/
theorem exists_step_of_drive {s : State} {p : Inputs} {rest : List HostMove} (h : s.script = .drive p :: rest) :
    ∃ t, step s = .next t ∧ t.inputs = p := by
  obtain ⟨u, hu⟩ := exists_step s
  obtain ⟨t, hedge, rfl⟩ := coreEdge_of_step hu
  exact ⟨_, hu, hostMove_inputs_of_drive ((coreEdge_script hedge).trans h)⟩

theorem hostPorts_wait_undone {d : BitVec 1} (h : d ≠ 1) (p : Inputs) (rest : List HostMove) :
    hostPorts d p (.wait :: rest) = (withoutRequest p, .wait :: rest) :=
  if_neg h

theorem hostPorts_wait_done (p : Inputs) (rest : List HostMove) :
    hostPorts 1 p (.wait :: rest) = hostPorts 1 (withoutRequest p) rest :=
  if_pos rfl

/-! ### Lines that start an operation, and RESET -/

/-- From IDLE, a line that drives a start request is accepted on the second edge: the host comes to it on the
first, and CORE captures the ports on the next. -/
theorem run_two_of_drive_start {s : State} {p : Inputs} {rest : List HostMove} (hord : s.ordinary)
    (hidle : s.fsm = .idle) (hquiet : s.inputs.start = 0) (hscript : s.script = .drive p :: rest)
    (hrst : p.rst = 0) (hstart : p.start = 1) :
    ∃ t : State, Sys2Proof.core.run 2 s = .next t ∧ t.fsm = .busy ∧ t.captured = captureInputs p := by
  have hports : (hostMove s).inputs = p := hostMove_inputs_of_drive hscript
  have hnostart : s.inputs.start ≠ 1 := by rw [hquiet]; decide
  have hacc : (hostMove s).accepting := ⟨⟨hord.1, hports ▸ hrst⟩, hidle, hports ▸ hstart⟩
  exact ⟨_, run_two (step_idle hord hidle hnostart) (step_accepting hacc), rfl, congrArg captureInputs hports⟩

/-- Settles O42: each of the three lines is one drive of a start request, and CORE captures the ports it drives. -/
theorem scriptLinesStartTheirOperation : Obligations.ScriptLinesStartTheirOperation := by
  unfold Obligations.ScriptLinesStartTheirOperation
  intro s left rest hord hidle hquiet
  refine ⟨fun i chars hscript => ?_, fun i id hscript => ?_, fun n hn hscript => ?_⟩
  all_goals
    obtain ⟨t, hrun, hbusy, hcap⟩ := run_two_of_drive_start hord hidle hquiet hscript rfl rfl
    refine ⟨t, hrun, hbusy, ?_⟩
    rw [hcap]
  · exact ⟨decode_encode i, lengthPort_toNat chars, textPort_getElem chars left.inText⟩
  · exact ⟨decode_encode i, rfl⟩
  · exact Nat.mod_eq_of_lt hn

/-- Settles O49: the host has `RST = 1` on the port after the first edge, whatever CORE did on it, and the second
edge is a reset edge. -/
theorem scriptResetLineResetsFromAnyState : Obligations.ScriptResetLineResetsFromAnyState := by
  unfold Obligations.ScriptResetLineResetsFromAnyState
  intro s left rest hscript
  obtain ⟨t, hstep, hports⟩ := exists_step_of_drive hscript
  have hrst : t.inputs.rst = 1 := congrArg Inputs.rst hports
  exact ⟨_, run_two hstep (step_reset hrst), rfl, rfl, rfl, rfl⟩

/-! ### WAIT -/

/-- Settles O43: the edge leaves the script alone, so the host is at its `wait` and goes by the `DONE` it sees. -/
theorem waitHoldsStartLowUntilDone : Obligations.WaitHoldsStartLowUntilDone := by
  unfold Obligations.WaitHoldsStartLowUntilDone
  intro s rest hscript
  obtain ⟨u, hu⟩ := exists_step s
  obtain ⟨t, hedge, rfl⟩ := coreEdge_of_step hu
  have hwait : t.script = .wait :: rest := (coreEdge_script hedge).trans hscript
  refine ⟨_, hu, fun hundone => ?_, fun hdone hlast => ?_⟩
  · rw [hostMove_done] at hundone
    rw [hostMove_inputs, hostMove_script, hwait, hostPorts_wait_undone hundone]
    exact ⟨rfl, rfl, rfl⟩
  · rw [hostMove_done] at hdone
    rw [hostMove_inputs, hostMove_script, hwait, hlast, hdone, hostPorts_wait_done, hostPorts_nil]
    exact ⟨rfl, rfl⟩

/-! ### EXPECT -/

theorem expectHolds_iff (k : Nat) (s : State) (port : OutPort) (v : Nat) :
    expectHolds k s port v = true ↔ v = portValue k s port := by
  rw [expectHolds, beq_iff_eq, eq_comm]

/-- Where the result registers are specified, a check on a port that shows the value `f` of them compares with it. -/
theorem expectHolds_iff_of_result {s : State} {k v : Nat} (port : OutPort) (f : Results → Nat)
    (hspec : resultsSpecified s = true) (hport : portValue k s port = f (readResults k s)) :
    expectHolds k s port v = true ↔ v = f s.results := by
  rw [expectHolds_iff, hport, readResults_specified hspec]

theorem portValue_busy_of_idle {k : Nat} {s : State} (hidle : s.fsm = .idle) : portValue k s .busy = 0 := by
  simp [portValue, readBusy, hidle]

/-- Settles O50: a check compares with the port's value. A result port's is the register's where the results are
specified, a buffer being the positional sum that `memRead` of all of it is, and BUSY is 0 there. -/
theorem expectComparesThePortWithTheValue : Obligations.ExpectComparesThePortWithTheValue := by
  unfold Obligations.ExpectComparesThePortWithTheValue
  intro s k v left p hspec
  have hidle : s.fsm = .idle := ((resultsSpecified_iff s).1 hspec).2
  refine ⟨rfl, expectHolds_iff k s .done v, ?_, ?_, ?_, ?_, ?_, ?_, expectHolds_iff k s .status v, ?_⟩
  · exact expectHolds_iff_of_result .err (fun r => r.err.toNat) hspec rfl
  · exact expectHolds_iff_of_result .errClass (fun r => r.errClass.toNat) hspec rfl
  · exact expectHolds_iff_of_result .kind (fun r => r.kind.toNat) hspec rfl
  · exact expectHolds_iff_of_result .outLen (fun r => r.outLen.toNat) hspec rfl
  · exact expectHolds_iff_of_result .outText (fun r => ∑ i : Fin 36, r.outText[i].toNat * 256 ^ (35 - i.val)) hspec
      (memRead_vector (readOutText k s))
  · exact expectHolds_iff_of_result .outId (fun r => identNumber r.outId) hspec (memRead_ident (readOutId k s))
  · rw [expectHolds_iff, portValue_busy_of_idle hidle]

end Sys2Proof.Machine
end

