-- ==== Sys2Proof/Proofs/UlidCodec.lean ====
section
/-! PROOFS. ULID_DECODE and ULID_ENCODE: what each completes with, and that they are inverse up to letter case (rules
R85, R100, R101, R105 to R109). -/

namespace Sys2Proof.Machine

/-! ### The completions -/

theorem exec_ulidDecode_of_ok {s : State} {id : Ident}
    (h : ulidDecodeFn s.captured.lenQ s.captured.textQ = .ok id) :
    exec .ulidDecode s = .next (outcomeState s ⟨0, 0, 0, 0, Text.zero, id⟩) := by
  simp only [exec, execUlidDecode, ulidDecodeOp, h, finish_ok]
  rfl

theorem exec_ulidDecode_of_error {s : State} {e : ErrClass}
    (h : ulidDecodeFn s.captured.lenQ s.captured.textQ = .error e) :
    exec .ulidDecode s = .next (outcomeState s (emptyOutputs e.code 0)) := by
  simp only [exec, execUlidDecode, ulidDecodeOp, h, finish_error]
  rfl

theorem exec_ulidEncode (s : State) :
    exec .ulidEncode s = .next
      (outcomeState s ⟨0, 0, 0, 26, padText (ulidEncodeFn (identValue s.captured.idQ)), s.captured.idQ⟩) :=
  rfl

/-- A completion of ULID_DECODE with `ERR = 0` is one with the identifier the codec returned. -/
theorem ulidDecodeFn_eq_ok_of_exec {s t : State} (h : exec .ulidDecode s = .next t) (herr : t.results.err = 0) :
    ulidDecodeFn s.captured.lenQ s.captured.textQ = .ok t.results.outId := by
  cases hfn : ulidDecodeFn s.captured.lenQ s.captured.textQ with
  | ok id =>
    rw [exec_ulidDecode_of_ok hfn] at h
    cases h
    rfl
  | error e =>
    rw [exec_ulidDecode_of_error hfn] at h
    cases h
    exact absurd herr (by decide : (1 : BitVec 1) ≠ 0)

/-! ### The symbols of an identifier -/

/-- The 26 symbol values of an identifier, most significant first: the base-32 digits of its number (rules R76,
R101). -/
def ulidSymbols (id : Ident) (i : Fin 26) : BitVec 5 := BitVec.ofNat 5 (identNumber id / 32 ^ (25 - i.val))

/-- The symbols of an identifier spell its number (rule R85). -/
theorem symbolNumber_ulidSymbols (id : Ident) : symbolNumber (ulidSymbols id) = identNumber id := by
  have hlt : identNumber id < 32 ^ 26 := (identNumber_lt id).trans (by decide)
  simp only [symbolNumber, ulidSymbols, BitVec.toNat_ofNat]
  exact sum_digits 32 26 _ hlt

/-- Only one symbol sequence spells an identifier's number. -/
theorem ulidSymbols_eq {id : Ident} {v : Fin 26 → BitVec 5} (h : identNumber id = symbolNumber v) :
    ulidSymbols id = v :=
  funext fun i => by rw [ulidSymbols, h, symbolNumber_digit]

/-- The first symbol has the two bits `W[129:128] = 0` above its three (rule R107). -/
theorem ulidSymbols_zero_lt (id : Ident) : (ulidSymbols id 0).toNat < 8 := by
  rw [← Nat.not_le, ← symbolNumber_ge_iff, symbolNumber_ulidSymbols, Nat.not_le]
  exact identNumber_lt id

/-- ULID_DECODE accepts exactly the 26-character texts that spell the symbols of the identifier it returns. -/
theorem ulidDecodeFn_eq_ok_iff {n : BitVec 8} {t : Text} {id : Ident} :
    ulidDecodeFn n t = .ok id ↔ n = 26 ∧ spellsSymbols t (ulidSymbols id) := by
  constructor
  · intro h
    by_cases hn : n = 26
    case neg => exact nomatch (ulidDecodeFn_length t hn).symm.trans h
    obtain ⟨v, hv⟩ | hbad := spellsSymbols_or t
    case inr => exact nomatch (ulidDecodeFn_charset hn hbad).symm.trans h
    by_cases hfirst : 8 ≤ (v 0).toNat
    case pos => exact nomatch (ulidDecodeFn_range hn hv hfirst).symm.trans h
    obtain ⟨id', hok, hnum⟩ := ulidDecodeFn_ok hn hv (Nat.not_le.1 hfirst)
    obtain rfl : id' = id := Except.ok.inj (hok.symm.trans h)
    rw [ulidSymbols_eq hnum]
    exact ⟨hn, hv⟩
  · rintro ⟨hn, hv⟩
    obtain ⟨id', hok, hnum⟩ := ulidDecodeFn_ok hn hv (ulidSymbols_zero_lt id)
    obtain rfl : id' = id := identNumber_injective (hnum.trans (symbolNumber_ulidSymbols id))
    exact hok

/-- The ULID form of an identifier is the alphabet's letters of its symbols. -/
theorem padText_ulidEncodeFn_getElem (id : Ident) (i : Fin 26) :
    (padText (ulidEncodeFn (identValue id)))[i.val] = alpha (ulidSymbols id i) :=
  (isUlidTextOf_encode id).1 i

/-- The letters of the values below 8 are the digits `'0'..'7'` (rule R82). -/
theorem alpha_digit {v : BitVec 5} (h : v.toNat < 8) : 0x30 ≤ alpha v ∧ alpha v ≤ 0x37 := by
  revert v; decide

/-! ### The statements -/

/-- Settles O20: the codec's accepting case, carried to the completion. -/
theorem ulidDecodeGivesTheSpelledIdentifier : Obligations.UlidDecodeGivesTheSpelledIdentifier := by
  unfold Obligations.UlidDecodeGivesTheSpelledIdentifier
  intro s v hlen hspells hfirst
  obtain ⟨id, hok, hnum⟩ := ulidDecodeFn_ok hlen hspells hfirst
  exact ⟨id, exec_ulidDecode_of_ok hok, hnum⟩

/-- Settles O21: the codec's three failing cases, carried to the completion. -/
theorem ulidDecodeFailsInCheckOrder : Obligations.UlidDecodeFailsInCheckOrder := by
  unfold Obligations.UlidDecodeFailsInCheckOrder
  exact fun s => ⟨fun hlen => exec_ulidDecode_of_error (ulidDecodeFn_length _ hlen),
    fun hlen hbad => exec_ulidDecode_of_error (ulidDecodeFn_charset hlen hbad),
    fun v hlen hspells hfirst => exec_ulidDecode_of_error (ulidDecodeFn_range hlen hspells hfirst)⟩

/-- Settles O22: the output is the ULID form, and its first letter is that of a symbol below 8. -/
theorem ulidEncodeSpellsTheIdentifier : Obligations.UlidEncodeSpellsTheIdentifier := by
  unfold Obligations.UlidEncodeSpellsTheIdentifier
  intro s
  have hfirst : (padText (ulidEncodeFn (identValue s.captured.idQ)))[0] = alpha (ulidSymbols s.captured.idQ 0) :=
    padText_ulidEncodeFn_getElem s.captured.idQ 0
  refine ⟨_, exec_ulidEncode s, isUlidTextOf_encode s.captured.idQ, ?_⟩
  rw [hfirst]
  exact alpha_digit (ulidSymbols_zero_lt s.captured.idQ)

/-- Settles O23: the letters of the identifier's symbols read back as these symbols. -/
theorem ulidEncodeThenDecodeIsIdentity : Obligations.UlidEncodeThenDecodeIsIdentity := by
  unfold Obligations.UlidEncodeThenDecodeIsIdentity
  intro s
  refine ⟨_, exec_ulidEncode s, fun s' hlen htext => ?_⟩
  have hspells : spellsSymbols s'.captured.textQ (ulidSymbols s.captured.idQ) := fun i => by
    rw [htext i, outcomeState_results, padText_ulidEncodeFn_getElem, sym_alpha]
  exact exec_ulidDecode_of_ok (ulidDecodeFn_eq_ok_iff.2 ⟨hlen, hspells⟩)

/-- Settles O24: an accepted text spells the identifier's symbols, and the letter of a character's symbol is the
character in upper case. -/
theorem ulidDecodeThenEncodeIsUpperCase : Obligations.UlidDecodeThenEncodeIsUpperCase := by
  unfold Obligations.UlidDecodeThenEncodeIsUpperCase
  intro s t hdecode herr s' hid
  obtain ⟨-, hspells⟩ := ulidDecodeFn_eq_ok_iff.1 (ulidDecodeFn_eq_ok_of_exec hdecode herr)
  refine ⟨_, exec_ulidEncode s', fun i => ?_⟩
  rw [outcomeState_results, padText_ulidEncodeFn_getElem, hid, upperCase_eq_alpha_of_sym (hspells i)]

end Sys2Proof.Machine
end

