-- ==== Sys2Proof/Proofs/UuidCodec.lean ====
section
/-! PROOFS. UUID_DECODE and UUID_ENCODE: what each completes with, and that decoding inverts encoding, with the hyphens
or without them (rules R77, R78, R88, R120, R121, R125 to R128). -/

namespace Sys2Proof.Machine

/-! ### The completions -/

theorem exec_uuidDecode_of_ok {s : State} {id : Ident}
    (h : uuidDecodeFn s.captured.lenQ s.captured.textQ = .ok id) :
    exec .uuidDecode s = .next (outcomeState s ⟨0, 0, 0, 0, Text.zero, id⟩) := by
  simp only [exec, execUuidDecode, uuidDecodeOp, h, finish_ok]
  rfl

theorem exec_uuidDecode_of_error {s : State} {e : ErrClass}
    (h : uuidDecodeFn s.captured.lenQ s.captured.textQ = .error e) :
    exec .uuidDecode s = .next (outcomeState s (emptyOutputs e.code 0)) := by
  simp only [exec, execUuidDecode, uuidDecodeOp, h, finish_error]
  rfl

theorem exec_uuidEncode (s : State) :
    exec .uuidEncode s = .next (outcomeState s ⟨0, 0, 0, 36, uuidEncodeFn s.captured.idQ, s.captured.idQ⟩) :=
  rfl

/-! ### The two forms of a text -/

theorem uuidDecodeFn_hyphenated_ok {n : BitVec 8} {t : Text} {d : Fin 32 → BitVec 4} (hn : n = 36)
    (hhyphens : hasHyphens t) (hdigits : spellsUuidDigits t d) :
    ∃ id, uuidDecodeFn n t = .ok id ∧ identOfNibbles id d := by
  rw [uuidDecodeFn_hyphenated hn hhyphens]
  exact decodeHexDigits_ok hdigits

theorem uuidDecodeFn_bare_ok {n : BitVec 8} {t : Text} {d : Fin 32 → BitVec 4} (hn : n = 32)
    (hdigits : spellsGuidDigits t d) : ∃ id, uuidDecodeFn n t = .ok id ∧ identOfNibbles id d := by
  rw [uuidDecodeFn_bare t hn]
  exact decodeHexDigits_ok hdigits

/-- A misplaced hyphen beside the bad digit gives the same class, so the order of the two checks cannot be observed
(rule R125). -/
theorem uuidDecodeFn_hyphenated_badDigit {n : BitVec 8} {t : Text} (hn : n = 36)
    (hbad : ∃ k : Fin 32, hexval t[uuidDigitPos k] = none) : uuidDecodeFn n t = .error .hex := by
  by_cases hhyphens : hasHyphens t
  · rw [uuidDecodeFn_hyphenated hn hhyphens]
    exact decodeHexDigits_error hbad
  · exact uuidDecodeFn_hyphens hn hhyphens

theorem uuidDecodeFn_bare_badDigit {n : BitVec 8} {t : Text} (hn : n = 32)
    (hbad : ∃ k : Fin 32, hexval t[k.val] = none) : uuidDecodeFn n t = .error .hex := by
  rw [uuidDecodeFn_bare t hn]
  exact decodeHexDigits_error hbad

/-! ### The digits of an identifier -/

/-- The 32 hex digits of an identifier, the high nibble of each byte first (rules R88, R121). -/
def uuidDigits (id : Ident) (k : Fin 32) : BitVec 4 :=
  if k.val % 2 = 0 then BitVec.ofNat 4 (id[k.val / 2].toNat / 16) else BitVec.ofNat 4 (id[k.val / 2].toNat % 16)

theorem uuidDigits_even (id : Ident) (j : Fin 16) :
    uuidDigits id ⟨2 * j.val, by omega⟩ = BitVec.ofNat 4 (id[j].toNat / 16) := by
  simp [uuidDigits]

theorem uuidDigits_odd (id : Ident) (j : Fin 16) :
    uuidDigits id ⟨2 * j.val + 1, by omega⟩ = BitVec.ofNat 4 (id[j].toNat % 16) := by
  have hdiv : (2 * j.val + 1) / 2 = j.val := by omega
  simp [uuidDigits, hdiv, Nat.add_mod]

/-- A byte is its two nibbles (rule R88). -/
theorem identOfNibbles_uuidDigits (id : Ident) : identOfNibbles id (uuidDigits id) := by
  intro j
  have hbyte : id[j].toNat < 256 := id[j].isLt
  rw [uuidDigits_even, uuidDigits_odd, BitVec.toNat_ofNat, BitVec.toNat_ofNat]
  omega

/-- The digit loop returns the identifier whose digits it reads. -/
theorem decodeHexDigits_uuidDigits {g : Fin 32 → Byte} {id : Ident}
    (h : ∀ k, hexval (g k) = some (uuidDigits id k)) : decodeHexDigits (List.ofFn g) = .ok id := by
  obtain ⟨id', hok, hnibbles⟩ := decodeHexDigits_ok h
  rw [hok, identOfNibbles_unique hnibbles (identOfNibbles_uuidDigits id)]

theorem uuidEncodeFn_getElem_digitPos (id : Ident) (k : Fin 32) :
    (uuidEncodeFn id)[uuidDigitPos k] = hexl (uuidDigits id k) := by
  obtain ⟨-, hdigits⟩ := isUuidTextOf_encode id
  obtain ⟨j, rfl | rfl⟩ : ∃ j : Fin 16, k = ⟨2 * j.val, by omega⟩ ∨ k = ⟨2 * j.val + 1, by omega⟩ :=
    ⟨⟨k.val / 2, by omega⟩, by simp only [Fin.ext_iff]; omega⟩
  · rw [uuidDigits_even]
    exact (hdigits j).1
  · rw [uuidDigits_odd]
    exact (hdigits j).2

theorem spellsUuidDigits_uuidEncodeFn (id : Ident) : spellsUuidDigits (uuidEncodeFn id) (uuidDigits id) := fun k => by
  rw [uuidEncodeFn_getElem_digitPos, hexval_hexl]

/-- The encoding reads back with its hyphens (rule R128). -/
theorem uuidDecodeFn_uuidEncodeFn (id : Ident) : uuidDecodeFn 36 (uuidEncodeFn id) = .ok id := by
  rw [uuidDecodeFn_hyphenated rfl (uuidEncodeFn_hyphens id)]
  exact decodeHexDigits_uuidDigits (spellsUuidDigits_uuidEncodeFn id)

/-- The encoding reads back without its hyphens (rule R128). -/
theorem uuidDecodeFn_of_hyphens_removed {id : Ident} {t : Text}
    (h : ∀ k : Fin 32, t[k.val] = (uuidEncodeFn id)[uuidDigitPos k]) : uuidDecodeFn 32 t = .ok id := by
  have hdigits : spellsGuidDigits t (uuidDigits id) := fun k => by rw [h k, spellsUuidDigits_uuidEncodeFn]
  rw [uuidDecodeFn_bare t rfl]
  exact decodeHexDigits_uuidDigits hdigits

/-! ### The statements -/

/-- Settles O25: with its hyphens in place, a text's digits reach the digit loop, which puts the nibbles together. -/
theorem uuidDecodeReadsTheHyphenatedForm : Obligations.UuidDecodeReadsTheHyphenatedForm := by
  unfold Obligations.UuidDecodeReadsTheHyphenatedForm
  intro s d hlen hhyphens hdigits
  obtain ⟨id, hok, hnibbles⟩ := uuidDecodeFn_hyphenated_ok hlen hhyphens hdigits
  exact ⟨id, exec_uuidDecode_of_ok hok, hnibbles⟩

/-- Settles O26: the digit loop on the first 32 characters, with no hyphen to check. -/
theorem uuidDecodeReadsTheBareForm : Obligations.UuidDecodeReadsTheBareForm := by
  unfold Obligations.UuidDecodeReadsTheBareForm
  intro s d hlen hdigits
  obtain ⟨id, hok, hnibbles⟩ := uuidDecodeFn_bare_ok hlen hdigits
  exact ⟨id, exec_uuidDecode_of_ok hok, hnibbles⟩

/-- Settles O27: the codec's four failing cases, carried to the completion. -/
theorem uuidDecodeFailsInCheckOrder : Obligations.UuidDecodeFailsInCheckOrder := by
  unfold Obligations.UuidDecodeFailsInCheckOrder
  exact fun s => ⟨fun h32 h36 => exec_uuidDecode_of_error (uuidDecodeFn_length _ h32 h36),
    fun hlen hhyphens => exec_uuidDecode_of_error (uuidDecodeFn_hyphens hlen hhyphens),
    fun hlen hbad => exec_uuidDecode_of_error (uuidDecodeFn_hyphenated_badDigit hlen hbad),
    fun hlen hbad => exec_uuidDecode_of_error (uuidDecodeFn_bare_badDigit hlen hbad)⟩

/-- Settles O28: the output is the UUID form of `ID_Q`. -/
theorem uuidEncodeRendersHyphenatedLowerHex : Obligations.UuidEncodeRendersHyphenatedLowerHex := by
  unfold Obligations.UuidEncodeRendersHyphenatedLowerHex
  exact fun s => ⟨_, exec_uuidEncode s, isUuidTextOf_encode s.captured.idQ⟩

/-- Settles O29: the digits of the encoding are the identifier's nibbles, read at their positions in either form. -/
theorem uuidEncodeThenDecodeIsIdentity : Obligations.UuidEncodeThenDecodeIsIdentity := by
  unfold Obligations.UuidEncodeThenDecodeIsIdentity
  intro s
  refine ⟨_, exec_uuidEncode s, fun s' hlen htext => exec_uuidDecode_of_ok ?_,
    fun s' hlen htext => exec_uuidDecode_of_ok ?_⟩
  · rw [hlen, htext]
    exact uuidDecodeFn_uuidEncodeFn s.captured.idQ
  · rw [hlen]
    exact uuidDecodeFn_of_hyphens_removed htext

end Sys2Proof.Machine
end

