-- ==== Sys2Proof/Proofs/ReservedCodes.lean ====
section
/-! PROOFS. The completion of the two reserved codes (rules R73, R150). -/

namespace Sys2Proof.Machine

/-- STATUS after a completion, whatever the host does next: `DONE`, not `BUSY`, and the results written (rules R36,
R38). -/
theorem readStatus_hostMove_outcomeState {s : State} (hsaw : s.sawReset = true) (r : Results) (k : Nat) :
    (readStatus k (hostMove (outcomeState s r))).toNat = 2 + 4 * (statusResultBits r).toNat := by
  have hspec : resultsSpecified (hostMove (outcomeState s r)) = true := (resultsSpecified_iff _).2 ⟨hsaw, rfl⟩
  rw [readStatus_toNat, statusMiddleBits_specified hspec]
  rfl

/-- Settles O16: the completion edge of a code that no operation has writes ILLEGAL_OP and the empty outputs, and
STATUS packs them. -/
theorem reservedCodesCompleteWithIllegalOp : Obligations.ReservedCodesCompleteWithIllegalOp := by
  unfold Obligations.ReservedCodesCompleteWithIllegalOp
  intro s hcomp hreserved
  have hstep := step_completing hcomp
  rw [completedResults_reserved hreserved] at hstep
  refine ⟨_, hstep, rfl, rfl, rfl, rfl, fun k => BitVec.eq_of_toNat_eq ?_⟩
  exact readStatus_hostMove_outcomeState hcomp.1.1 (emptyOutputs 4 0) k

end Sys2Proof.Machine
end

