-- ==== Sys2Proof/Proofs/Dispatcher.lean ====
section
/-! PROOFS. CLASSIFY and CONVERT: the completion each verdict leads to, and the round trip of a conversion (rules R140,
R144 to R146, R148, R149, R163). -/

namespace Sys2Proof.Machine

/-! ### The values of a text's characters -/

/-- A table that has every character of a sequence gives the sequence of their values. -/
theorem exists_values_of_ne_none {ι α : Type} {f : ι → Option α} (h : ∀ i, f i ≠ none) :
    ∃ v : ι → α, ∀ i, f i = some (v i) :=
  Classical.skolem.1 fun i => Option.ne_none_iff_exists'.1 (h i)

theorem ulidShape_of_spellsSymbols {n : BitVec 8} {t : Text} {v : Fin 26 → BitVec 5} (hn : n = 26)
    (h : spellsSymbols t v) : ulidShape n t :=
  ⟨hn, fun i => Option.ne_none_iff_exists'.2 ⟨v i, h i⟩⟩

theorem guidShape_of_spellsGuidDigits {n : BitVec 8} {t : Text} {d : Fin 32 → BitVec 4} (hn : n = 32)
    (h : spellsGuidDigits t d) : guidShape n t :=
  ⟨hn, fun k => Option.ne_none_iff_exists'.2 ⟨d k, h k⟩⟩

/-- Only one digit sequence gives an identifier's bytes (rule R88). -/
theorem uuidDigits_eq {id : Ident} {d : Fin 32 → BitVec 4} (h : identOfNibbles id d) : uuidDigits id = d := by
  funext k
  obtain ⟨j, rfl | rfl⟩ : ∃ j : Fin 16, k = ⟨2 * j.val, by omega⟩ ∨ k = ⟨2 * j.val + 1, by omega⟩ :=
    ⟨⟨k.val / 2, by omega⟩, by simp only [Fin.ext_iff]; omega⟩
  all_goals
    have hbyte := h j
    have hhigh := (d ⟨2 * j.val, by omega⟩).isLt
    have hlow := (d ⟨2 * j.val + 1, by omega⟩).isLt
    apply BitVec.eq_of_toNat_eq
  · rw [uuidDigits_even, BitVec.toNat_ofNat]
    omega
  · rw [uuidDigits_odd, BitVec.toNat_ofNat]
    omega

/-- The digit loop accepts exactly the digits of the identifier it returns. -/
theorem decodeHexDigits_eq_ok_iff {g : Fin 32 → Byte} {id : Ident} :
    decodeHexDigits (List.ofFn g) = .ok id ↔ ∀ k, hexval (g k) = some (uuidDigits id k) := by
  refine ⟨fun h => ?_, decodeHexDigits_uuidDigits⟩
  by_cases hbad : ∃ k, hexval (g k) = none
  case pos => exact nomatch (decodeHexDigits_error hbad).symm.trans h
  obtain ⟨d, hd⟩ := exists_values_of_ne_none (not_exists.1 hbad)
  obtain ⟨id', hok, hnibbles⟩ := decodeHexDigits_ok hd
  obtain rfl : id' = id := Except.ok.inj (hok.symm.trans h)
  rwa [uuidDigits_eq hnibbles]

/-! ### What the decoders answer after a verdict -/

/-- After the verdict ULID the decode fails exactly when the first symbol is 8 or more, and then with RANGE (rules
R102, R144). -/
theorem ulidDecodeFn_of_ulidShape {n : BitVec 8} {t : Text} (h : ulidShape n t) :
    (∃ id, ulidDecodeFn n t = .ok id ∧ ¬ ∃ v, sym t[0] = some v ∧ 8 ≤ v.toNat)
      ∨ ulidDecodeFn n t = .error .range ∧ ∃ v, sym t[0] = some v ∧ 8 ≤ v.toNat := by
  obtain ⟨hn, hsyms⟩ := h
  obtain ⟨v, hv⟩ := exists_values_of_ne_none hsyms
  have hfirst : sym t[0] = some (v 0) := hv 0
  by_cases h8 : 8 ≤ (v 0).toNat
  · exact .inr ⟨ulidDecodeFn_range hn hv h8, v 0, hfirst, h8⟩
  · obtain ⟨id, hok, -⟩ := ulidDecodeFn_ok hn hv (Nat.not_le.1 h8)
    refine .inl ⟨id, hok, fun ⟨w, hw, hw8⟩ => h8 ?_⟩
    rwa [← Option.some.inj (hw.symm.trans hfirst)]

/-- After the verdict UUID the decode fails exactly when a digit position is not hex, and then with HEX (rule
R144). -/
theorem uuidDecodeFn_of_uuidShape {n : BitVec 8} {t : Text} (h : uuidShape n t) :
    (∃ id, uuidDecodeFn n t = .ok id ∧ ¬ ∃ k : Fin 32, hexval t[uuidDigitPos k] = none)
      ∨ uuidDecodeFn n t = .error .hex ∧ ∃ k : Fin 32, hexval t[uuidDigitPos k] = none := by
  obtain ⟨hn, hhyphens⟩ := h
  by_cases hbad : ∃ k : Fin 32, hexval t[uuidDigitPos k] = none
  · exact .inr ⟨uuidDecodeFn_hyphenated_badDigit hn hbad, hbad⟩
  · obtain ⟨d, hd⟩ := exists_values_of_ne_none (not_exists.1 hbad)
    obtain ⟨id, hok, -⟩ := uuidDecodeFn_hyphenated_ok hn hhyphens hd
    exact .inl ⟨id, hok, hbad⟩

theorem ulidDecodeFn_eq_range_iff {n : BitVec 8} {t : Text} (h : ulidShape n t) :
    ulidDecodeFn n t = .error .range ↔ ∃ v, sym t[0] = some v ∧ 8 ≤ v.toNat := by
  obtain ⟨id, hok, hfirst⟩ | ⟨herr, hfirst⟩ := ulidDecodeFn_of_ulidShape h
  · exact iff_of_false (by rw [hok]; nofun) hfirst
  · exact iff_of_true herr hfirst

theorem uuidDecodeFn_eq_hex_iff {n : BitVec 8} {t : Text} (h : uuidShape n t) :
    uuidDecodeFn n t = .error .hex ↔ ∃ k : Fin 32, hexval t[uuidDigitPos k] = none := by
  obtain ⟨id, hok, hdigits⟩ | ⟨herr, hdigit⟩ := uuidDecodeFn_of_uuidShape h
  · exact iff_of_false (by rw [hok]; nofun) hdigits
  · exact iff_of_true herr hdigit

/-- After the verdict GUID the decode cannot fail (rule R144). -/
theorem uuidDecodeFn_of_guidShape {n : BitVec 8} {t : Text} (h : guidShape n t) :
    ∃ id, uuidDecodeFn n t = .ok id := by
  obtain ⟨hn, hdigits⟩ := h
  obtain ⟨d, hd⟩ := exists_values_of_ne_none hdigits
  obtain ⟨id, hok, -⟩ := uuidDecodeFn_bare_ok hn hd
  exact ⟨id, hok⟩

/-! ### Texts that fit no shape though their length does -/

theorem classifyFn_of_misplacedHyphen {n : BitVec 8} {t : Text} (hn : n = 36) (h : ¬ hasHyphens t) :
    classifyFn n t = .unrecognized := by
  subst hn
  exact classifyFn_unrecognized (fun hs => absurd hs.1 (by decide)) (fun hs => h hs.2)
    (fun hs => absurd hs.1 (by decide))

theorem classifyFn_of_bare_badDigit {n : BitVec 8} {t : Text} (hn : n = 32)
    (h : ∃ k : Fin 32, hexval t[k.val] = none) : classifyFn n t = .unrecognized := by
  subst hn
  obtain ⟨k, hk⟩ := h
  exact classifyFn_unrecognized (fun hs => absurd hs.1 (by decide)) (fun hs => absurd hs.1 (by decide))
    (fun hs => hs.2 k hk)

/-! ### The completions -/

theorem exec_classify_of_kind {s : State} {v : Kind} (hv : classifyFn s.captured.lenQ s.captured.textQ = v)
    (hne : v ≠ .unrecognized) :
    exec .classify s = .next (outcomeState s ⟨0, 0, v.code, 0, Text.zero, Ident.zero⟩) := by
  simp only [exec, execClassify, classifyOp, hv]
  cases v with
  | unrecognized => exact absurd rfl hne
  | ulid => rfl
  | uuid => rfl
  | guid => rfl

theorem exec_classify_of_unrecognized {s : State}
    (hv : classifyFn s.captured.lenQ s.captured.textQ = .unrecognized) :
    exec .classify s = .next (outcomeState s (emptyOutputs 1 4)) := by
  simp only [exec, execClassify, classifyOp, hv, finish_error]
  rfl

/-- What CONVERT writes for an operand, by the shape of the text and the answer of the decoder that the verdict
selects (rules R144, R146, R163). -/
inductive ConvertOutcome (n : BitVec 8) (t : Text) : Results → Prop where
  | noShape (hv : classifyFn n t = .unrecognized) : ConvertOutcome n t (emptyOutputs 1 4)
  | ulid {id : Ident} (hshape : ulidShape n t) (hok : ulidDecodeFn n t = .ok id) :
      ConvertOutcome n t ⟨0, 0, 1, 36, uuidEncodeFn id, id⟩
  | ulidRange (hshape : ulidShape n t) (herr : ulidDecodeFn n t = .error .range) :
      ConvertOutcome n t (emptyOutputs 2 1)
  | uuid {id : Ident} (hshape : uuidShape n t) (hok : uuidDecodeFn n t = .ok id) :
      ConvertOutcome n t ⟨0, 0, 2, 26, padText (ulidEncodeFn (identValue id)), id⟩
  | uuidHex (hshape : uuidShape n t) (herr : uuidDecodeFn n t = .error .hex) :
      ConvertOutcome n t (emptyOutputs 3 2)
  | guid {id : Ident} (hshape : guidShape n t) (hok : uuidDecodeFn n t = .ok id) :
      ConvertOutcome n t ⟨0, 0, 3, 26, padText (ulidEncodeFn (identValue id)), id⟩

theorem exec_convert_of_outcome {s : State} {r : Results}
    (h : ConvertOutcome s.captured.lenQ s.captured.textQ r) : exec .convert s = .next (outcomeState s r) := by
  cases h with
  | noShape hv => simp only [exec, execConvert, convertOp, hv]; rfl
  | ulid hshape hok => simp only [exec, execConvert, convertOp, convertToUuid, classifyFn_ulid hshape, hok]; rfl
  | ulidRange hshape herr => simp only [exec, execConvert, convertOp, convertToUuid, classifyFn_ulid hshape, herr]; rfl
  | uuid hshape hok => simp only [exec, execConvert, convertOp, convertToUlid, classifyFn_uuid hshape, hok]; rfl
  | uuidHex hshape herr => simp only [exec, execConvert, convertOp, convertToUlid, classifyFn_uuid hshape, herr]; rfl
  | guid hshape hok => simp only [exec, execConvert, convertOp, convertToUlid, classifyFn_guid hshape, hok]; rfl

/-- The six outcomes are all there are. -/
theorem exists_convertOutcome (n : BitVec 8) (t : Text) : ∃ r, ConvertOutcome n t r := by
  rcases classifyFn_cases n t with ⟨hshape, -⟩ | ⟨hshape, -⟩ | ⟨hshape, -⟩ | ⟨-, -, -, hv⟩
  · obtain ⟨id, hok, -⟩ | ⟨herr, -⟩ := ulidDecodeFn_of_ulidShape hshape
    · exact ⟨_, .ulid hshape hok⟩
    · exact ⟨_, .ulidRange hshape herr⟩
  · obtain ⟨id, hok, -⟩ | ⟨herr, -⟩ := uuidDecodeFn_of_uuidShape hshape
    · exact ⟨_, .uuid hshape hok⟩
    · exact ⟨_, .uuidHex hshape herr⟩
  · obtain ⟨id, hok⟩ := uuidDecodeFn_of_guidShape hshape
    exact ⟨_, .guid hshape hok⟩
  · exact ⟨_, .noShape hv⟩

/-- What a completion of CONVERT has written is one of the six outcomes. -/
theorem convertOutcome_of_exec {s t : State} (h : exec .convert s = .next t) :
    ConvertOutcome s.captured.lenQ s.captured.textQ t.results := by
  obtain ⟨r, hr⟩ := exists_convertOutcome s.captured.lenQ s.captured.textQ
  rw [exec_convert_of_outcome hr] at h
  cases h
  exact hr

/-- An outcome with `ERR = 0` holds the form of the identifier that the text decodes to: the UUID form for a ULID
text, the ULID form for any other (rule R146). -/
theorem ConvertOutcome.decoded {n : BitVec 8} {t : Text} {r : Results} (h : ConvertOutcome n t r) (herr : r.err = 0) :
    (n = 26 ∧ ∃ id, ulidDecodeFn n t = .ok id ∧ r.outText = uuidEncodeFn id)
      ∨ (n ≠ 26 ∧ ∃ id, uuidDecodeFn n t = .ok id ∧ r.outText = padText (ulidEncodeFn (identValue id))) := by
  cases h with
  | noShape => cases herr
  | ulid hshape hok => exact .inl ⟨hshape.1, _, hok, rfl⟩
  | ulidRange => cases herr
  | uuid hshape hok => exact .inr ⟨by rw [hshape.1]; decide, _, hok, rfl⟩
  | uuidHex => cases herr
  | guid hshape hok => exact .inr ⟨by rw [hshape.1]; decide, _, hok, rfl⟩

/-! ### The round trip -/

/-- CONVERT of the UUID form of an identifier gives its ULID form. -/
theorem exec_convert_of_uuidForm {s : State} {id : Ident} (hlen : s.captured.lenQ = 36)
    (htext : s.captured.textQ = uuidEncodeFn id) :
    exec .convert s = .next (outcomeState s ⟨0, 0, 2, 26, padText (ulidEncodeFn (identValue id)), id⟩) := by
  apply exec_convert_of_outcome
  rw [hlen, htext]
  exact .uuid ⟨rfl, uuidEncodeFn_hyphens id⟩ (uuidDecodeFn_uuidEncodeFn id)

/-- CONVERT of the ULID form of an identifier gives its UUID form. -/
theorem exec_convert_of_ulidForm {s : State} {id : Ident} (hlen : s.captured.lenQ = 26)
    (htext : ∀ i : Fin 26, s.captured.textQ[i.val] = (padText (ulidEncodeFn (identValue id)))[i.val]) :
    exec .convert s = .next (outcomeState s ⟨0, 0, 1, 36, uuidEncodeFn id, id⟩) := by
  have hspells : spellsSymbols s.captured.textQ (ulidSymbols id) := fun i => by
    rw [htext i, padText_ulidEncodeFn_getElem, sym_alpha]
  exact exec_convert_of_outcome
    (.ulid (ulidShape_of_spellsSymbols hlen hspells) (ulidDecodeFn_eq_ok_iff.2 ⟨hlen, hspells⟩))

/-- Every position of a UUID text is a digit's or a hyphen's (rule R77). -/
theorem uuidDigitPos_or_hyphen (i : Fin 36) :
    (∃ k, i = uuidDigitPos k) ∨ i = 8 ∨ i = 13 ∨ i = 18 ∨ i = 23 := by
  revert i; decide

/-- The UUID form of what an accepted hyphenated text spells is the text in lower case. -/
theorem uuidEncodeFn_getElem_eq_lowerCase {n : BitVec 8} {t : Text} {id : Ident} (hn : n = 36)
    (hok : uuidDecodeFn n t = .ok id) (i : Fin 36) : (uuidEncodeFn id)[i] = lowerCase t[i] := by
  have hhyphens : hasHyphens t := by_contra fun h => nomatch (uuidDecodeFn_hyphens hn h).symm.trans hok
  rw [uuidDecodeFn_hyphenated hn hhyphens, decodeHexDigits_eq_ok_iff] at hok
  obtain ⟨h8, h13, h18, h23⟩ := hhyphens
  obtain ⟨e8, e13, e18, e23⟩ := uuidEncodeFn_hyphens id
  obtain ⟨k, rfl⟩ | rfl | rfl | rfl | rfl := uuidDigitPos_or_hyphen i
  · rw [uuidEncodeFn_getElem_digitPos, lowerCase_eq_hexl_of_hexval (hok k)]
  · exact e8.trans (congrArg lowerCase h8.symm)
  · exact e13.trans (congrArg lowerCase h13.symm)
  · exact e18.trans (congrArg lowerCase h18.symm)
  · exact e23.trans (congrArg lowerCase h23.symm)

/-- The UUID form of what an accepted bare text spells has the text's digits in lower case. -/
theorem uuidEncodeFn_digitPos_eq_lowerCase {n : BitVec 8} {t : Text} {id : Ident} (hn : n = 32)
    (hok : uuidDecodeFn n t = .ok id) (k : Fin 32) : (uuidEncodeFn id)[uuidDigitPos k] = lowerCase t[k.val] := by
  rw [uuidDecodeFn_bare t hn, decodeHexDigits_eq_ok_iff] at hok
  rw [uuidEncodeFn_getElem_digitPos, lowerCase_eq_hexl_of_hexval (hok k)]

/-- CONVERT of what CONVERT gave for an accepted UUID or GUID text gives the UUID form of what that text spells. -/
theorem exec_convert_twice_of_uuid {s t s' : State} (hexec : exec .convert s = .next t) (herr : t.results.err = 0)
    (hlen : s.captured.lenQ ≠ 26) (hlen' : s'.captured.lenQ = 26)
    (htext : ∀ i : Fin 26, s'.captured.textQ[i.val] = t.results.outText[i.val]) :
    ∃ id, uuidDecodeFn s.captured.lenQ s.captured.textQ = .ok id
      ∧ exec .convert s' = .next (outcomeState s' ⟨0, 0, 1, 36, uuidEncodeFn id, id⟩) := by
  obtain ⟨h26, -⟩ | ⟨-, id, hok, hout⟩ := (convertOutcome_of_exec hexec).decoded herr
  · exact absurd h26 hlen
  · rw [hout] at htext
    exact ⟨id, hok, exec_convert_of_ulidForm hlen' htext⟩

/-! ### The statements -/

/-- Settles O30: one completion for each answer of the classifier. -/
theorem classifyWritesTheVerdict : Obligations.ClassifyWritesTheVerdict := by
  unfold Obligations.ClassifyWritesTheVerdict
  exact fun s => ⟨fun h => exec_classify_of_kind (classifyFn_ulid h) nofun,
    fun h => exec_classify_of_kind (classifyFn_uuid h) nofun,
    fun h => exec_classify_of_kind (classifyFn_guid h) nofun,
    fun hulid huuid hguid => exec_classify_of_unrecognized (classifyFn_unrecognized hulid huuid hguid)⟩

/-- Settles O31: the ULID outcome, with the identifier that the symbols spell. -/
theorem convertTurnsUlidIntoUuid : Obligations.ConvertTurnsUlidIntoUuid := by
  unfold Obligations.ConvertTurnsUlidIntoUuid
  intro s v hlen hspells hfirst
  obtain ⟨id, hok, hnum⟩ := ulidDecodeFn_ok hlen hspells hfirst
  exact ⟨id, _, exec_convert_of_outcome (.ulid (ulidShape_of_spellsSymbols hlen hspells) hok), hnum,
    isUuidTextOf_encode id⟩

/-- Settles O32: the UUID outcome, with the identifier of the digits. -/
theorem convertTurnsUuidIntoUlid : Obligations.ConvertTurnsUuidIntoUlid := by
  unfold Obligations.ConvertTurnsUuidIntoUlid
  intro s d hlen hhyphens hdigits
  obtain ⟨id, hok, hnibbles⟩ := uuidDecodeFn_hyphenated_ok hlen hhyphens hdigits
  exact ⟨id, _, exec_convert_of_outcome (.uuid ⟨hlen, hhyphens⟩ hok), hnibbles, isUlidTextOf_encode id⟩

/-- Settles O33: the GUID outcome, with the identifier of the digits. -/
theorem convertTurnsGuidIntoUlid : Obligations.ConvertTurnsGuidIntoUlid := by
  unfold Obligations.ConvertTurnsGuidIntoUlid
  intro s d hlen hdigits
  obtain ⟨id, hok, hnibbles⟩ := uuidDecodeFn_bare_ok hlen hdigits
  exact ⟨id, _, exec_convert_of_outcome (.guid (guidShape_of_spellsGuidDigits hlen hdigits) hok), hnibbles,
    isUlidTextOf_encode id⟩

/-- Settles O34: CONVERT's three failing outcomes. -/
theorem convertFailsWithItsVerdict : Obligations.ConvertFailsWithItsVerdict := by
  unfold Obligations.ConvertFailsWithItsVerdict
  refine fun s => ⟨fun hulid huuid hguid => ?_, fun v hlen hspells hfirst => ?_, fun hshape hbad => ?_⟩
  · exact exec_convert_of_outcome (.noShape (classifyFn_unrecognized hulid huuid hguid))
  · exact exec_convert_of_outcome
      (.ulidRange (ulidShape_of_spellsSymbols hlen hspells) (ulidDecodeFn_range hlen hspells hfirst))
  · exact exec_convert_of_outcome (.uuidHex hshape (uuidDecodeFn_hyphenated_badDigit hshape.1 hbad))

/-- Settles O36: neither text has any shape, and the codec answers both with HEX. -/
theorem badShapeIsShapeForTheDispatcherAndHexForTheCodec :
    Obligations.BadShapeIsShapeForTheDispatcherAndHexForTheCodec := by
  unfold Obligations.BadShapeIsShapeForTheDispatcherAndHexForTheCodec
  intro s hbad
  obtain ⟨hv, hhex⟩ : classifyFn s.captured.lenQ s.captured.textQ = .unrecognized
      ∧ uuidDecodeFn s.captured.lenQ s.captured.textQ = .error .hex := by
    obtain ⟨hlen, hhyphens⟩ | ⟨hlen, hdigit⟩ := hbad
    · exact ⟨classifyFn_of_misplacedHyphen hlen hhyphens, uuidDecodeFn_hyphens hlen hhyphens⟩
    · exact ⟨classifyFn_of_bare_badDigit hlen hdigit, uuidDecodeFn_bare_badDigit hlen hdigit⟩
  exact ⟨exec_convert_of_outcome (.noShape hv), exec_classify_of_unrecognized hv, exec_uuidDecode_of_error hhex⟩

/-- Settles O35: each outcome has one kind, and its decoder's answer says whether the text has the flaw that the kind
can have. -/
theorem verdictBoundsTheDecodeFailure : Obligations.VerdictBoundsTheDecodeFailure := by
  unfold Obligations.VerdictBoundsTheDecodeFailure
  intro s
  obtain ⟨r, hr⟩ := exists_convertOutcome s.captured.lenQ s.captured.textQ
  refine ⟨_, exec_convert_of_outcome hr, ?_⟩
  rw [outcomeState_results]
  cases hr with
  | noShape hv => exact ⟨nofun, nofun, nofun, fun _ => rfl⟩
  | ulid hshape hok =>
    have hfirst := (ulidDecodeFn_eq_range_iff hshape).not.1 (by rw [hok]; nofun)
    exact ⟨fun _ => ⟨.inl rfl, iff_of_false nofun hfirst⟩, nofun, nofun, nofun⟩
  | ulidRange hshape herr =>
    have hfirst := (ulidDecodeFn_eq_range_iff hshape).1 herr
    exact ⟨fun _ => ⟨.inr rfl, iff_of_true rfl hfirst⟩, nofun, nofun, nofun⟩
  | uuid hshape hok =>
    have hdigits := (uuidDecodeFn_eq_hex_iff hshape).not.1 (by rw [hok]; nofun)
    exact ⟨nofun, fun _ => ⟨.inl rfl, iff_of_false nofun hdigits⟩, nofun, nofun⟩
  | uuidHex hshape herr =>
    have hdigit := (uuidDecodeFn_eq_hex_iff hshape).1 herr
    exact ⟨nofun, fun _ => ⟨.inr rfl, iff_of_true rfl hdigit⟩, nofun, nofun⟩
  | guid hshape hok => exact ⟨nofun, nofun, fun _ => rfl, nofun⟩

/-- Settles O37: an accepted text leads to the form of its identifier, which leads back to the identifier's form of
the first kind, and that is the text with its case normalised. -/
theorem convertTwiceNormalisesTheText : Obligations.ConvertTwiceNormalisesTheText := by
  unfold Obligations.ConvertTwiceNormalisesTheText
  refine ⟨fun s t hexec hlen herr s' hlen' htext => ?_,
    fun s t hexec herr s' hlen' htext => ⟨fun hlen => ?_, fun hlen => ?_⟩⟩
  · obtain ⟨-, id, hok, hout⟩ | ⟨hne, -⟩ := (convertOutcome_of_exec hexec).decoded herr
    case inr => exact absurd hlen hne
    refine ⟨_, exec_convert_of_uuidForm hlen' (htext.trans hout), rfl, rfl, fun i => ?_⟩
    obtain ⟨-, hspells⟩ := ulidDecodeFn_eq_ok_iff.1 hok
    rw [outcomeState_results, padText_ulidEncodeFn_getElem, upperCase_eq_alpha_of_sym (hspells i)]
  · have hne : s.captured.lenQ ≠ 26 := by rw [hlen]; decide
    obtain ⟨id, hok, hback⟩ := exec_convert_twice_of_uuid hexec herr hne hlen' htext
    exact ⟨_, hback, rfl, rfl, uuidEncodeFn_getElem_eq_lowerCase hlen hok⟩
  · have hne : s.captured.lenQ ≠ 26 := by rw [hlen]; decide
    obtain ⟨id, hok, hback⟩ := exec_convert_twice_of_uuid hexec herr hne hlen' htext
    exact ⟨_, hback, rfl, rfl, uuidEncodeFn_hyphens id, uuidEncodeFn_digitPos_eq_lowerCase hlen hok⟩

end Sys2Proof.Machine
end

