-- ==== Sys2Proof/Proofs/Totality.lean ====
section
/-! PROOFS. The machine never hangs and never stops: its step is total (rules R72, R162). -/

namespace Sys2Proof.Machine

/-- Settles O17: whichever of the six kinds of edge `coreEdge_cases` lists comes, it gives a next state, a reserved
code's completion included, and the host's move follows (`exists_step`). -/
theorem everyEdgeGivesANextState : Obligations.EveryEdgeGivesANextState := by
  unfold Obligations.EveryEdgeGivesANextState
  exact exists_step

end Sys2Proof.Machine
end

