-- ==== Sys2Proof/Proofs/Reset.lean ====
section
/-! PROOFS. A reset edge from any state, and what can follow it: rest, until the host requests something, or an
accepted start (rules R30, R38, R180, R181, R184). -/

namespace Sys2Proof.Machine

/-! ### The host without requests -/

/-- What holds of every drive still to come holds after the host's move, as its script only gets shorter. -/
theorem drivesAhead_hostMove {Q : Inputs → Prop} {t : State} (h : ∀ p, HostMove.drive p ∈ t.script → Q p) :
    ∀ p, HostMove.drive p ∈ (hostMove t).script → Q p :=
  fun p hp => h p ((hostPorts_mem t.done t.inputs t.script).2 _ hp)

/-- A host that requests no start, now or later, keeps to it. -/
theorem start_hostMove {t : State} (hnow : t.inputs.start = 0) (hlater : t.noStartAhead) :
    (hostMove t).inputs.start = 0 := by
  rw [hostMove_inputs]
  obtain ⟨hsame | hquiet | hdrive, -⟩ := hostPorts_mem t.done t.inputs t.script
  · rw [hsame]; exact hnow
  · rw [hquiet]; exact withoutRequest_start _
  · exact hlater _ hdrive

/-! ### Rest after a reset -/

/-- CORE has been reset and rests: IDLE, `DONE = 0` and the reset values in the result registers, with neither a
start request nor a reset on the ports or ahead. -/
structure State.atRest (s : State) : Prop where
  sawReset : s.sawReset = true
  idle : s.fsm = .idle
  undone : s.done = 0
  results : s.results = resetResults
  noStart : s.inputs.start = 0
  noStartAhead : s.noStartAhead
  noReset : s.noResetAhead

/-- A resting CORE holds every register (rule R38), and its host still requests nothing. -/
theorem step_atRest {s : State} (h : s.atRest) : ∃ t, step s = .next t ∧ t.atRest := by
  have hnostart : s.inputs.start ≠ 1 := by rw [h.noStart]; decide
  refine ⟨_, step_idle ⟨h.sawReset, h.noReset.1⟩ h.idle hnostart, ?_⟩
  exact {
    sawReset := h.sawReset
    idle := h.idle
    undone := h.undone
    results := h.results
    noStart := start_hostMove h.noStart h.noStartAhead
    noStartAhead := drivesAhead_hostMove h.noStartAhead
    noReset := noResetAhead_hostMove h.noReset }

theorem run_atRest (n : Nat) {s : State} (h : s.atRest) :
    ∃ u : State, Sys2Proof.core.run n s = .next u ∧ u.atRest := by
  induction n generalizing s with
  | zero => exact ⟨s, rfl, h⟩
  | succ n ih =>
    obtain ⟨t, hstep, ht⟩ := step_atRest h
    obtain ⟨u, hrun, hu⟩ := ih ht
    exact ⟨u, (run_succ n hstep).trans hrun, hu⟩

/-- Settles O7: the reset edge leaves CORE at rest once the host has taken its requests off the ports, and rest
lasts. -/
theorem resetCutsOffTheOperationForGood : Obligations.ResetCutsOffTheOperationForGood := by
  unfold Obligations.ResetCutsOffTheOperationForGood
  intro s hrst hnoStart hnoReset
  have hstep := step_reset hrst
  obtain ⟨hidle, hundone⟩ := fsm_done_of_reset hstep hrst
  refine ⟨_, hstep, hidle, hundone, fun ⟨hstart, hrstAfter⟩ n => ?_⟩
  have hrest : (hostMove (resetEdge s)).atRest :=
    ⟨rfl, hidle, hundone, rfl, hstart, drivesAhead_hostMove (t := resetEdge s) hnoStart,
      hrstAfter, drivesAhead_hostMove (t := resetEdge s) hnoReset⟩
  obtain ⟨u, hrun, hu⟩ := run_atRest n hrest
  exact ⟨u, hrun, hu.idle, hu.undone, hu.results⟩

/-! ### The reset values, and a start right after the reset -/

/-- STATUS reads 0 after a reset edge, whatever the host does next: it packs the registers that `State.reset` has
(rules R36, R42). -/
theorem readStatus_hostMove_resetEdge (s : State) (k : Nat) : readStatus k (hostMove (resetEdge s)) = 0 := by
  have hsame : readStatus k (hostMove (resetEdge s)) = readStatus k State.reset := rfl
  rw [hsame, readStatus_reset]

/-- Settles O6: the reset edge writes the reset values, the host's move leaves them, and STATUS packs them. -/
theorem resetEdgeGivesTheResetValues : Obligations.ResetEdgeGivesTheResetValues := by
  unfold Obligations.ResetEdgeGivesTheResetValues
  intro s hrst
  exact ⟨_, step_reset hrst, rfl, rfl, rfl, rfl, readStatus_hostMove_resetEdge s⟩

/-- Settles O8: the reset edge leaves CORE IDLE and the host comes to its drive, so the next edge accepts the start. -/
theorem resetThenStartIsAccepted : Obligations.ResetThenStartIsAccepted := by
  unfold Obligations.ResetThenStartIsAccepted
  intro s p rest hrst hscript hnoReset hstart
  have hports : (hostMove (resetEdge s)).inputs = p := hostMove_inputs_of_drive (t := resetEdge s) hscript
  have hacc : (hostMove (resetEdge s)).accepting := ⟨⟨rfl, hports ▸ hnoReset⟩, rfl, hports ▸ hstart⟩
  exact ⟨_, run_two (step_reset hrst) (step_accepting hacc), rfl, rfl, congrArg captureInputs hports⟩

end Sys2Proof.Machine
end
